-- ==== Sys2Proof/Word.lean ====
section
/-!
DEFINITION. The words of the machine: the 8-bit byte of a register or a memory cell (R7, R14, R31), the 9-bit
program counter value (R19), a register index (R14).
-/

namespace Sys2Proof

/-- A register's or a memory cell's content, an unsigned number 0 to 255 (R7). -/
abbrev Byte := BitVec 8

/-- A value of the program counter: 9 bits (R19). -/
abbrev PcWord := BitVec 9

/-- The number of registers, `NREG` (R5). -/
abbrev numRegs : Nat := 8

/-- The number of memory cells, `MEM_SIZE` (R5). -/
abbrev memSize : Nat := 256

/-- The index of a register, 0 to 7 (R14). -/
abbrev RegIdx := Fin numRegs

end Sys2Proof
end

