-- ==== Sys2Proof/Syntax.lean ====
section
/-!
DEFINITION. The twelve instructions (R2). An operand is the whole operand byte as it was fetched (R50, R51): a
register index above 7 is an instruction that can be fetched and whose meaning faults, so it is a term here.
-/

namespace Sys2Proof

/-- The closed enumeration of operations the decoder selects among (R2, R59). -/
inductive Op where
  | hlt | ldi | prn | mul | push | pop | call | ret | jmp | cmp | jeq | jne
  deriving DecidableEq, Repr

/-- All twelve, in the order of R52's table. -/
def Op.all : List Op :=
  [.hlt, .ldi, .prn, .mul, .push, .pop, .call, .ret, .jmp, .cmp, .jeq, .jne]

/-- The number of operand bytes in the handler table (R50, R53 item 2). -/
def Op.operandCount : Op → Nat
  | .hlt | .ret => 0
  | .prn | .push | .pop | .call | .jmp | .jeq | .jne => 1
  | .ldi | .mul | .cmp => 2

/-- An instruction: `a` is the first operand byte, `b` the second (R9, R50). -/
inductive Instr where
  /-- `HLT` (R72). -/
  | hlt
  /-- `LDI Ra, b`: `a` names the destination register, `b` is the immediate (R73). -/
  | ldi (a b : Byte)
  /-- `PRN Ra` (R74). -/
  | prn (a : Byte)
  /-- `MUL Ra, Rb`: `a` names the first source and the destination (R75). -/
  | mul (a b : Byte)
  /-- `PUSH Ra` (R77). -/
  | push (a : Byte)
  /-- `POP Ra` (R78). -/
  | pop (a : Byte)
  /-- `CALL Ra`: `a` names the register that holds the target (R80). -/
  | call (a : Byte)
  /-- `RET` (R81). -/
  | ret
  /-- `JMP Ra` (R82). -/
  | jmp (a : Byte)
  /-- `CMP Ra, Rb` (R83). -/
  | cmp (a b : Byte)
  /-- `JEQ Ra` (R84). -/
  | jeq (a : Byte)
  /-- `JNE Ra` (R85). -/
  | jne (a : Byte)
  deriving DecidableEq, Repr

/-- The operation of an instruction. -/
def Instr.op : Instr → Op
  | .hlt => .hlt
  | .ldi _ _ => .ldi
  | .prn _ => .prn
  | .mul _ _ => .mul
  | .push _ => .push
  | .pop _ => .pop
  | .call _ => .call
  | .ret => .ret
  | .jmp _ => .jmp
  | .cmp _ _ => .cmp
  | .jeq _ => .jeq
  | .jne _ => .jne

/-- The operand bytes in memory order (R50). -/
def Instr.operandBytes : Instr → List Byte
  | .hlt | .ret => []
  | .prn a | .push a | .pop a | .call a | .jmp a | .jeq a | .jne a => [a]
  | .ldi a b | .mul a b | .cmp a b => [a, b]

/-- The operand bytes that are register indices, in the order they are validated (R51, R69): LDI's second operand
is an immediate and is not among them. -/
def Instr.registerOperands : Instr → List Byte
  | .hlt | .ret => []
  | .ldi a _ | .prn a | .push a | .pop a | .call a | .jmp a | .jeq a | .jne a => [a]
  | .mul a b | .cmp a b => [a, b]

/-- "operand count + 1": the number of bytes the instruction occupies (R12, R48). -/
def Instr.width (i : Instr) : Nat := i.op.operandCount + 1

end Sys2Proof
end

