-- ==== Sys2Proof/Config.lean ====
section
/-!
DEFINITION. The implementation parameters of R5 that an instruction's meaning or the decoder depends on, and the
spec's default for each. The model keeps one such record in the machine's state (log 26), so that every claim over
all states is a claim over all values of the parameters.
-/

namespace Sys2Proof

/-- How the stack pointer register is protected from use as a destination operand, `SP_PROTECT` (R5, R17). -/
inductive SpProtect where
  /-- A destination operand that names it raises `ReservedRegisterWrite`. -/
  | faultOnWrite
  /-- It is written like any other register, as the original software did. -/
  | none
  deriving DecidableEq, Repr

/-- The twelve opcode byte values `OPC_HLT` .. `OPC_JNE` (R5, R52). -/
structure OpcodeMap where
  hlt : Byte
  ldi : Byte
  prn : Byte
  mul : Byte
  push : Byte
  pop : Byte
  call : Byte
  ret : Byte
  jmp : Byte
  cmp : Byte
  jeq : Byte
  jne : Byte
  deriving DecidableEq, Repr

/-- The values of R52. PRESUMED by the spec itself: "from general knowledge, not in source" (D1; log 1). -/
def OpcodeMap.std : OpcodeMap where
  hlt := 0x01
  ldi := 0x82
  prn := 0x47
  mul := 0xA2
  push := 0x45
  pop := 0x46
  call := 0x50
  ret := 0x11
  jmp := 0x54
  cmp := 0xA7
  jeq := 0x55
  jne := 0x56

/-- The opcode byte of an operation (R52). -/
def OpcodeMap.byte (m : OpcodeMap) : Op → Byte
  | .hlt => m.hlt
  | .ldi => m.ldi
  | .prn => m.prn
  | .mul => m.mul
  | .push => m.push
  | .pop => m.pop
  | .call => m.call
  | .ret => m.ret
  | .jmp => m.jmp
  | .cmp => m.cmp
  | .jeq => m.jeq
  | .jne => m.jne

/-- The parameters of the engine that are fixed while it runs (R5). -/
structure Config where
  /-- `SP_INDEX`. -/
  spIndex : RegIdx
  /-- `SP_PROTECT`. -/
  spProtect : SpProtect
  /-- `OPC_HLT` .. `OPC_JNE`. -/
  opcodes : OpcodeMap
  deriving DecidableEq, Repr

/-- The spec's defaults: `SP_INDEX` = 7 (D3, log 3), `SP_PROTECT` = `fault_on_write` (D4, log 4), R52's bytes. -/
def Config.std : Config where
  spIndex := 7
  spProtect := .faultOnWrite
  opcodes := .std

/-- `SP_RESET`, the reset value of the stack pointer (R5: fixed). -/
def spReset : Byte := 0xF4

/-- `PC_RESET`, the reset value of the program counter (R5: fixed). -/
def pcReset : PcWord := 0

end Sys2Proof
end

