-- ==== Sys2Proof/Machine/State.lean ====
section
/-!
DEFINITION. The state of the engine: R13's table and nothing else, plus the record of parameters (R5, log 26); the
machine's own faults (R86) as data; the outcomes of a model step; the state after reset (R30).
-/

namespace Sys2Proof.Machine

/-- "three independent condition bits: Equal, Less, Greater" (R20). -/
structure Flags where
  /-- `FL.E`. -/
  equal : Bool
  /-- `FL.L`. -/
  less : Bool
  /-- `FL.G`. -/
  greater : Bool
  deriving DecidableEq, Repr

/-- The run state (R22). -/
inductive RunState where
  | running
  | halted
  | faulted
  deriving DecidableEq, Repr

/-- Which space an index of `OutOfBoundsAccess` belongs to (R88). -/
inductive Space where
  | mem
  | reg
  deriving DecidableEq, Repr

/-- The faults of the machine with the information each records (R86). -/
inductive FaultCause where
  /-- The byte fetched at `pc` is not one of the twelve opcodes (R87). -/
  | unknownOpcode (byte : Byte)
  /-- A memory address above 255 or a register-index operand above 7 (R88). -/
  | outOfBoundsAccess (space : Space) (index : Nat)
  /-- PUSH or CALL with `SP` = 0; the attempted stack pointer is -1 (R89). -/
  | stackOverflow (attempted : Int)
  /-- POP or RET with `SP` = 255; the attempted stack pointer is 256 (R90). -/
  | stackUnderflow (attempted : Int)
  /-- LDI, MUL or POP into the stack pointer register (R91). -/
  | reservedRegisterWrite (index : RegIdx)
  deriving DecidableEq, Repr

/-- The fault record: kind and information, and the address of the faulting instruction's opcode byte (R23). -/
structure FaultRecord where
  cause : FaultCause
  pc : PcWord
  deriving DecidableEq, Repr

/-- Memory as (address, byte) pairs in canonical form: addresses strictly rising and below 256, no listed byte equal
to what an unlisted address reads as (`Memory.wf`). -/
abbrev Memory := List Host.Cell

/-- The whole state of the engine (R13), and the parameters it was built with. -/
structure State where
  /-- `M[0..255]` (R31). -/
  mem : Memory
  /-- `R[0..7]` (R14). -/
  regs : Vector Byte 8
  /-- The program counter (R18, R19). -/
  pc : PcWord
  /-- The condition flags (R20). -/
  flags : Flags
  /-- The run state (R22). -/
  run : RunState
  /-- The fault record, none unless faulted (R23). -/
  fault : Option FaultRecord
  /-- The instruction register (R24). -/
  ir : Byte
  /-- The output log, oldest byte first (R26). -/
  out : List Byte
  /-- The parameters of R5: no state of the engine but the model's own field, which no step changes (log 26). -/
  cfg : Config
  deriving DecidableEq, Repr

/-- Why a MODEL step has no next state. The machine's own faults are not here: each is a next state with `run` =
`Faulted` (R92, log 25). -/
inductive Fault where
  /-- Raised by `step` in a state with `run` = `Halted`: "no step is enabled" (R22, R61; log 21). Safe: the model
  stops where the machine does. -/
  | halted
  /-- Raised by `step` in a state with `run` = `Faulted`: "no step is enabled" (R22, R61, R96; log 21). Safe: the
  model stops where the machine does. -/
  | faulted
  deriving DecidableEq, Repr

/-- Why the model gives an instruction no meaning. -/
inductive Refusal where
  /-- Raised by an arm of `exec` for an instruction without a meaning. No arm raises it: all twelve have one. Safe. -/
  | notModelled (mnemonic : String)
  deriving DecidableEq, Repr

/-- What one step or one instruction's meaning answers. -/
abbrev Result := Host.Outcome State Fault Refusal

/-- What a cell that is not listed reads as: `RESET_MEM`, 0x00 for every cell (R30). DESIGN CHOICE of the spec (D12;
log 13), unsafe. -/
def unlistedByte : Byte := 0x00

/-- The reset state of R30 with the parameters `c`, `RESET_REG` = `regs`, `RESET_FLAGS` = `flags` and `RESET_MEM` =
`mem`; the entry of `regs` at `SP_INDEX` is not used (R5). -/
def State.resetWith (c : Config) (regs : Vector Byte 8) (flags : Flags) (mem : Memory) : State where
  mem := mem
  regs := regs.set c.spIndex spReset
  pc := pcReset
  flags := flags
  run := .running
  fault := none
  ir := 0x00
  out := []
  cfg := c

/-- The machine right after reset (R30, R105), every parameter at the spec's default (D1, D3, D4, D12, D24; logs 1, 3,
4, 12, 13, 23). -/
def State.reset : State :=
  .resetWith .std (Vector.replicate 8 0x00) ⟨false, false, false⟩ []

end Sys2Proof.Machine
end

