-- ==== Sys2Proof/Machine/Ops.lean ====
section
/-!
DEFINITION. The named operations over memory, registers, the stack and the output log (R8's primitives), and TAKING A
FAULT as one shared operation (R92). There is no return from a fault (R96).
-/

namespace Sys2Proof.Machine

/-! ### Memory (R31 to R33) -/

/-- `M[a]`: the content of cell `a`; no check, no effect (R8). -/
def Memory.get : Memory → Nat → Byte
  | [], _ => unlistedByte
  | (b, v) :: m, a => if b = a then v else Memory.get m a

/-- The listing without cell `a`. -/
def Memory.erase (m : Memory) (a : Nat) : Memory := m.filter fun c => c.1 != a

/-- Lists the cell (`a`, `v`) at its place by address. -/
def Memory.insert (a : Nat) (v : Byte) : Memory → Memory
  | [] => [(a, v)]
  | (b, w) :: m => if a < b then (a, v) :: (b, w) :: m else (b, w) :: Memory.insert a v m

/-- Makes cell `a` hold `v`, keeping the canonical form: a cell that holds what an unlisted one reads as is not listed. -/
def Memory.set (m : Memory) (a : Nat) (v : Byte) : Memory :=
  if v = unlistedByte then m.erase a else (m.erase a).insert a v

/-- The canonical form: addresses strictly rising, all of them below 256, no listed byte that an unlisted cell reads as. -/
abbrev Memory.wf (m : Memory) : Prop :=
  (m.map Prod.fst).Pairwise (· < ·) ∧ ∀ c ∈ m, c.1 < memSize ∧ c.2 ≠ unlistedByte

/-- `MemRead(a, 1)` (R32); an address above 255 is never accessed and raises (R33). -/
def memRead (m : Memory) (a : Nat) : Except FaultCause Byte :=
  if a < memSize then .ok (m.get a) else .error (.outOfBoundsAccess .mem a)

/-- `MemWrite(a, 1, v)` (R32); an address above 255 is never accessed and raises (R33). -/
def memWrite (m : Memory) (a : Nat) (v : Byte) : Except FaultCause Memory :=
  if a < memSize then .ok (m.set a v) else .error (.outOfBoundsAccess .mem a)

/-! ### Registers, program counter, instruction register, output -/

/-- `M[a]` of the state. -/
def State.byteAt (s : State) (a : Nat) : Byte := s.mem.get a

/-- `R[i]` (R14). -/
def State.reg (s : State) (i : RegIdx) : Byte := s.regs[i]

/-- `R[i] <- v` (R14). No register is hardwired. -/
def State.setReg (s : State) (i : RegIdx) (v : Byte) : State := { s with regs := s.regs.set i v }

/-- `SP` (R16). -/
def State.sp (s : State) : Byte := s.reg s.cfg.spIndex

/-- `SP <- v` (R16). -/
def State.setSp (s : State) (v : Byte) : State := s.setReg s.cfg.spIndex v

/-- `pc <- t` (R19). -/
def State.setPc (s : State) (t : PcWord) : State := { s with pc := t }

/-- `zext_9(v)`: the same number in nine bits (R7). -/
def zext9 (v : Byte) : PcWord := v.setWidth 9

/-- The memory array replaced by `m`. -/
def State.setMem (s : State) (m : Memory) : State := { s with mem := m }

/-- The flags written, all three (R20). -/
def State.setFlags (s : State) (f : Flags) : State := { s with flags := f }

/-- `ir <- b`, the latch the fetch loads (R24, R62). -/
def State.latchIr (s : State) (b : Byte) : State := { s with ir := b }

/-- `emit(v)`: appends `v` to the output log (R74). The channel always accepts (D25, log 24). -/
def State.emit (s : State) (v : Byte) : State := { s with out := s.out ++ [v] }

/-- `run <- Halted` (R72). -/
def State.halt (s : State) : State := { s with run := .halted }

/-! ### Taking a fault (R92, R93) -/

/-- `raise`: `run` becomes `Faulted`, the record becomes (kind, `pc`, information), and nothing else changes (R92).
Control goes nowhere: there is no handler. -/
def State.raise (s : State) (c : FaultCause) : State :=
  { s with run := .faulted, fault := some { cause := c, pc := s.pc } }

/-- Ends an instruction that began in `s`: its whole effect, or the fault it raised, taken in `s` itself so that no
part of the effect remains (R93). -/
def State.finish (s : State) : Except FaultCause State → Result
  | .ok t => .next t
  | .error c => .next (s.raise c)

/-! ### The stack (R79) -/

/-- The decrement of `SP`: exact, a fault at 0, never a wrap (R76, R79). -/
def State.decSp (s : State) : Except FaultCause State :=
  if s.sp = 0 then .error (.stackOverflow (-1)) else .ok (s.setSp (s.sp - 1))

/-- The increment of `SP`: exact, a fault at 255, never a wrap (R76, R79). -/
def State.incSp (s : State) : Except FaultCause State :=
  if s.sp = 255 then .error (.stackUnderflow 256) else .ok (s.setSp (s.sp + 1))

/-- `MemWrite(SP, 1, v)` (R79). -/
def State.storeAtSp (s : State) (v : Byte) : Except FaultCause State := do
  let m ← memWrite s.mem s.sp.toNat v
  return s.setMem m

/-- `push(v)`, `v` computed before the call (R79). -/
def State.push (s : State) (v : Byte) : Except FaultCause State := do
  let s ← s.decSp
  s.storeAtSp v

/-- `pop()`: the byte and the state after it (R79). -/
def State.pop (s : State) : Except FaultCause (Byte × State) := do
  let v ← memRead s.mem s.sp.toNat
  let s ← s.incSp
  return (v, s)

end Sys2Proof.Machine
end

