-- ==== Sys2Proof/Machine/Operands.lean ====
section
/-!
DEFINITION. The operand forms: a register index (R51), a register index used as a destination (R17). The only other
form, LDI's immediate, is the operand byte itself (R51).
-/

namespace Sys2Proof.Machine

/-- `regidx(b)`: the whole operand byte as an unsigned number; above 7 it raises, the upper bits are not masked (R51). -/
def regidx (b : Byte) : Except FaultCause RegIdx :=
  if h : b.toNat < numRegs then .ok ⟨b.toNat, h⟩ else .error (.outOfBoundsAccess .reg b.toNat)

/-- `dest(i)`: `i`, or the fault of R17 when `i` is the stack pointer and `SP_PROTECT` = `fault_on_write` (D4, log 4). -/
def dest (c : Config) (i : RegIdx) : Except FaultCause RegIdx :=
  match c.spProtect with
  | .none => .ok i
  | .faultOnWrite => if i = c.spIndex then .error (.reservedRegisterWrite i) else .ok i

end Sys2Proof.Machine
end

