-- ==== Sys2Proof/Machine/Alu.lean ====
section
/-!
DEFINITION. MUL and the arithmetic law (R75, R76).
-/

namespace Sys2Proof.Machine

/-- `(x * y) mod 256` over the unsigned numbers (R76). -/
def mulMod256 (x y : Byte) : Byte := BitVec.ofNat 8 (x.toNat * y.toNat % 256)

/-- MUL's effect, R75's pseudocode line by line: both indices are validated before the destination check. -/
def mulEffect (a b : Byte) (s : State) : Except FaultCause State := do
  let i ← regidx a
  let j ← regidx b
  let i ← dest s.cfg i
  return (s.setReg i (mulMod256 (s.reg i) (s.reg j))).setPc (s.pc + 3)

/-- MUL (R75). -/
def execMul (a b : Byte) (s : State) : Result := s.finish (mulEffect a b s)

end Sys2Proof.Machine
end

