-- ==== Sys2Proof/Machine/Basic.lean ====
section
/-!
DEFINITION. HLT, LDI, PRN (R72 to R74). In every meaning `s.pc` is the address of the instruction's own opcode byte
(R18), and the last line gives the resulting `pc`, auto-advance included (R67).
-/

namespace Sys2Proof.Machine

/-- HLT (R72). -/
def execHlt (s : State) : Result := .next (s.halt.setPc (s.pc + 1))

/-- LDI's effect, R73's pseudocode line by line. -/
def ldiEffect (a b : Byte) (s : State) : Except FaultCause State := do
  let i ← regidx a
  let i ← dest s.cfg i
  return (s.setReg i b).setPc (s.pc + 3)

/-- LDI (R73). -/
def execLdi (a b : Byte) (s : State) : Result := s.finish (ldiEffect a b s)

/-- PRN's effect, R74's pseudocode line by line. -/
def prnEffect (a : Byte) (s : State) : Except FaultCause State := do
  let i ← regidx a
  return (s.emit (s.reg i)).setPc (s.pc + 2)

/-- PRN (R74). -/
def execPrn (a : Byte) (s : State) : Result := s.finish (prnEffect a s)

end Sys2Proof.Machine
end

