-- ==== Sys2Proof/Machine/Flags.lean ====
section
/-!
DEFINITION. The one flag computation of the machine, CMP's (R83), the condition the conditional jumps read (R84, R85),
and the packing of the flags into a byte (R21).
-/

namespace Sys2Proof.Machine

/-- The flags CMP writes for the unsigned numbers `x` = `R[a]` and `y` = `R[b]` (R83; the direction of Less is D13,
log 14). -/
def compareFlags (x y : Byte) : Flags where
  equal := decide (x.toNat = y.toNat)
  less := decide (x.toNat < y.toNat)
  greater := decide (x.toNat > y.toNat)

/-- `FL` = `0b00000LGE` (R21; D14, log 15). No instruction reads it. -/
def Flags.pack (f : Flags) : Byte :=
  BitVec.ofNat 8 (f.less.toNat * 4 + f.greater.toNat * 2 + f.equal.toNat)

/-- Exactly one of the three is set, as after any CMP (R20). -/
def Flags.exactlyOne (f : Flags) : Bool := f.less.toNat + f.greater.toNat + f.equal.toNat == 1

end Sys2Proof.Machine
end

