-- ==== Sys2Proof/Machine/Branch.lean ====
section
/-!
DEFINITION. CMP, JEQ, JNE (R83 to R85).
-/

namespace Sys2Proof.Machine

/-- CMP's effect, R83's pseudocode line by line. -/
def cmpEffect (a b : Byte) (s : State) : Except FaultCause State := do
  let i ← regidx a
  let j ← regidx b
  return (s.setFlags (compareFlags (s.reg i) (s.reg j))).setPc (s.pc + 3)

/-- CMP (R83). -/
def execCmp (a b : Byte) (s : State) : Result := s.finish (cmpEffect a b s)

/-- A conditional jump: the operand is validated whether or not the jump is taken (R66, D18, log 18); taken, `pc` is
the register; not taken, `pc` advances by the width 2, whichever mechanism adds it (R70, C1, log 28). -/
def branchEffect (taken : Bool) (a : Byte) (s : State) : Except FaultCause State := do
  let i ← regidx a
  return s.setPc (if taken then zext9 (s.reg i) else s.pc + 2)

/-- JEQ (R84): taken when `FL.E` = 1. -/
def execJeq (a : Byte) (s : State) : Result := s.finish (branchEffect s.flags.equal a s)

/-- JNE (R85): taken when `FL.E` = 0. -/
def execJne (a : Byte) (s : State) : Result := s.finish (branchEffect (!s.flags.equal) a s)

end Sys2Proof.Machine
end

