-- ==== Sys2Proof/Machine/Control.lean ====
section
/-!
DEFINITION. CALL, RET, JMP (R80 to R82). All three set PC themselves.
-/

namespace Sys2Proof.Machine

/-- CALL's return address `pc + 2`, over the naturals (R80). -/
def State.returnAddress (s : State) : Nat := s.pc.toNat + 2

/-- CALL's effect, R80's pseudocode line by line: a return address of 256 or more is refused as an address (D8, log 8)
before the push, and `R[i]` is read AFTER the push. -/
def callEffect (a : Byte) (s : State) : Except FaultCause State := do
  let i ← regidx a
  if s.returnAddress > 255 then .error (.outOfBoundsAccess .mem s.returnAddress)
  else
    let s1 ← s.push (BitVec.ofNat 8 s.returnAddress)
    return s1.setPc (zext9 (s1.reg i))

/-- CALL (R80). -/
def execCall (a : Byte) (s : State) : Result := s.finish (callEffect a s)

/-- RET's effect, R81's pseudocode line by line. -/
def retEffect (s : State) : Except FaultCause State := do
  let (t, s1) ← s.pop
  return s1.setPc (zext9 t)

/-- RET (R81). -/
def execRet (s : State) : Result := s.finish (retEffect s)

/-- JMP's effect, R82's pseudocode line by line. -/
def jmpEffect (a : Byte) (s : State) : Except FaultCause State := do
  let i ← regidx a
  return s.setPc (zext9 (s.reg i))

/-- JMP (R82). -/
def execJmp (a : Byte) (s : State) : Result := s.finish (jmpEffect a s)

end Sys2Proof.Machine
end

