-- ==== Sys2Proof/Machine/Stack.lean ====
section
/-!
DEFINITION. PUSH and POP (R77 to R79).
-/

namespace Sys2Proof.Machine

/-- PUSH's effect, R77's pseudocode line by line: `R[i]` is read AFTER the decrement, so `PUSH` of the stack pointer
register pushes the decremented value. -/
def pushEffect (a : Byte) (s : State) : Except FaultCause State := do
  let i ← regidx a
  let s1 ← s.decSp
  let s2 ← s1.storeAtSp (s1.reg i)
  return s2.setPc (s.pc + 2)

/-- PUSH (R77). -/
def execPush (a : Byte) (s : State) : Result := s.finish (pushEffect a s)

/-- The net effect of popping into the stack pointer register itself, which only `SP_PROTECT` = `none` allows: `SP`
becomes the popped byte + 1 (R78, the case "not the whole story"). -/
def State.popIntoSp (s : State) : Except FaultCause State := do
  let v ← memRead s.mem s.sp.toNat
  if s.sp = 255 ∨ v = 255 then .error (.stackUnderflow 256)
  else return s.setSp (v + 1)

/-- `R[i] <- pop()` for a register other than the stack pointer: the register first, then the increment (R78). -/
def State.popInto (s : State) (i : RegIdx) : Except FaultCause State := do
  let (v, s1) ← s.pop
  return s1.setReg i v

/-- POP's effect, R78's pseudocode. -/
def popEffect (a : Byte) (s : State) : Except FaultCause State := do
  let i ← regidx a
  let i ← dest s.cfg i
  let s1 ← if i = s.cfg.spIndex then s.popIntoSp else s.popInto i
  return s1.setPc (s.pc + 2)

/-- POP (R78). -/
def execPop (a : Byte) (s : State) : Result := s.finish (popEffect a s)

end Sys2Proof.Machine
end

