-- ==== Sys2Proof/WellFormed.lean ====
section
/-!
DEFINITION. Well-formed instructions: every register-index operand names a register (R51). The opcode values'
admissibility (R53) is stated with the decoder's bit fields, in Decode.lean.
-/

namespace Sys2Proof

/-- A register-index operand is valid when it is 0 to 7 (R51). -/
def validRegister (b : Byte) : Bool := decide (b.toNat < numRegs)

/-- Every register-index operand of the instruction is valid (R51, R66). -/
def Instr.wellFormed (i : Instr) : Bool := i.registerOperands.all validRegister

end Sys2Proof
end

