-- ==== Sys2Proof/Decode.lean ====
section
/-!
DEFINITION. The opcode decoder and dispatch multiplexer (R48, R49, R59), the operand bytes (R50, R66), the encoder,
and the constraints the spec puts on the twelve opcode values (R53). Decoding is total on any bytes and rejects by name.
-/

namespace Sys2Proof

/-- `nops` = bits 7:6 of the opcode byte: how many operand bytes follow (R49, R63). -/
def nopsField (b : Byte) : Nat := (b.extractLsb' 6 2).toNat

/-- `selfpc` = bit 4 of the opcode byte: the instruction sets PC itself (R49, R64). Bit 0 is the least significant
(R6, log 2). -/
def selfPcBit (b : Byte) : Bool := b.getLsbD 4

/-- What R53 item 3 fixes of bit 4: set for CALL, RET, JMP; clear for the seven that never write `pc`; left open for
JEQ and JNE (item 4, C1). -/
def Op.setsPc : Op → Option Bool
  | .call | .ret | .jmp => some true
  | .hlt | .ldi | .prn | .mul | .push | .pop | .cmp => some false
  | .jeq | .jne => none

/-- R53 item 1: the twelve values are distinct. -/
def OpcodeMap.distinct (m : OpcodeMap) : Bool := decide (Op.all.map m.byte).Nodup

/-- R53 item 2: bits 7:6 of each value equal its operand count. -/
def OpcodeMap.countsMatch (m : OpcodeMap) : Bool :=
  Op.all.all fun o => nopsField (m.byte o) == o.operandCount

/-- R53 item 3: bit 4 of each value is as its "Sets PC itself" mark says, where the source says one. -/
def OpcodeMap.marksMatch (m : OpcodeMap) : Bool :=
  Op.all.all fun o => match o.setsPc with
    | some mark => selfPcBit (m.byte o) == mark
    | none => true

/-- The opcode values satisfy all that R53 asks of them. -/
def OpcodeMap.admissible (m : OpcodeMap) : Bool := m.distinct && m.countsMatch && m.marksMatch

/-- Why bytes are no instruction. -/
inductive Reject where
  /-- There is no byte at all (a fetch beyond memory, R62). -/
  | noByte
  /-- The first byte is none of the twelve opcodes (R54, R65). -/
  | unknownOpcode (byte : Byte)
  /-- The `k`-th operand byte (1 or 2) is missing, the lowest one that is (R66). -/
  | missingOperand (k : Nat)
  deriving DecidableEq, Repr

/-- What decoding some bytes gives: an instruction and the bytes after it, or a rejection by name. -/
inductive Decoded where
  | ok (i : Instr) (rest : List Byte)
  | rejected (r : Reject)
  deriving DecidableEq, Repr

/-- The dispatch multiplexer: an exact match on all eight bits selects one operation, or none (R49, R59, R65). -/
def decodeOp (m : OpcodeMap) (b : Byte) : Option Op := Op.all.find? fun o => m.byte o == b

/-- Takes the one operand byte of format R (R50). -/
def withOneOperand (k : Byte → Instr) : List Byte → Decoded
  | a :: rest => .ok (k a) rest
  | [] => .rejected (.missingOperand 1)

/-- Takes the two operand bytes of formats RR and RI (R50), the first before the second (R66, R94 rows 3 and 4). -/
def withTwoOperands (k : Byte → Byte → Instr) : List Byte → Decoded
  | a :: b :: rest => .ok (k a b) rest
  | [_] => .rejected (.missingOperand 2)
  | [] => .rejected (.missingOperand 1)

/-- Takes the operand bytes the operation calls for (R50, R66). -/
def takeOperands : Op → List Byte → Decoded
  | .hlt, bs => .ok .hlt bs
  | .ldi, bs => withTwoOperands .ldi bs
  | .prn, bs => withOneOperand .prn bs
  | .mul, bs => withTwoOperands .mul bs
  | .push, bs => withOneOperand .push bs
  | .pop, bs => withOneOperand .pop bs
  | .call, bs => withOneOperand .call bs
  | .ret, bs => .ok .ret bs
  | .jmp, bs => withOneOperand .jmp bs
  | .cmp, bs => withTwoOperands .cmp bs
  | .jeq, bs => withOneOperand .jeq bs
  | .jne, bs => withOneOperand .jne bs

/-- The decoder: the unknown-opcode check comes before any operand is taken (R65, R94 row 2). -/
def decode (m : OpcodeMap) : List Byte → Decoded
  | [] => .rejected .noByte
  | b :: bs => match decodeOp m b with
    | none => .rejected (.unknownOpcode b)
    | some o => takeOperands o bs

/-- The bytes of an instruction, lowest address first (R48, R50, R57's column "bytes"). -/
def encode (m : OpcodeMap) (i : Instr) : List Byte := m.byte i.op :: i.operandBytes

/-- The longest instruction is three bytes (R48). -/
def maxWidth : Nat := 3

/-- The bytes of a table word: byte 0 is bits 7..0 of `w`, byte 1 bits 15..8, byte 2 bits 23..16; every bit from
`nbits` up is 0. The lowest byte lies at the lowest address (R36). -/
def tableBytes (nbits w : Nat) : List Byte :=
  (List.range maxWidth).map fun k => BitVec.ofNat 8 (w % 2 ^ nbits / 256 ^ k)

/-- The instruction the decoder reads from a table word, with the opcode values of R52. -/
def decodeTableWord (nbits w : Nat) : Option Instr :=
  match decode .std (tableBytes nbits w) with
  | .ok i _ => some i
  | .rejected _ => none

end Sys2Proof
end

