-- ==== Sys2Proof/Machine/Fetch.lean ====
section
/-!
DEFINITION. The fetch of an instruction's bytes at the program counter (R62, R66, R44), the fault a rejected fetch
raises (R65, R66, R94 rows 2 to 4), and the placing of a table word where the next fetch finds it.
-/

namespace Sys2Proof.Machine

/-- The bytes of the cells `a`, `a + 1`, … that exist, at most `n` of them (R31, R33: no wrap at the top). -/
def bytesFrom (m : Memory) : Nat → Nat → List Byte
  | 0, _ => []
  | n + 1, a => if a < memSize then m.get a :: bytesFrom m n (a + 1) else []

/-- What the decoder makes of the bytes at `pc`: at most three, fewer at the top of memory (R48, R62, R66). -/
def State.decodeAtPc (s : State) : Decoded :=
  decode s.cfg.opcodes (bytesFrom s.mem maxWidth s.pc.toNat)

/-- The fault of a rejected fetch: the opcode itself beyond memory (R62), an unknown opcode (R65), or the lowest
operand address beyond memory (R66). -/
def State.rejectCause (s : State) : Reject → FaultCause
  | .noByte => .outOfBoundsAccess .mem s.pc.toNat
  | .unknownOpcode b => .unknownOpcode b
  | .missingOperand k => .outOfBoundsAccess .mem (s.pc.toNat + k)

/-- The state after the opcode fetch: `ir` holds the byte at `pc` (R62). -/
def State.fetched (s : State) : State := s.latchIr (s.mem.get s.pc.toNat)

/-- Writes the bytes to the cells `a`, `a + 1`, … that exist. -/
def writeBytes (m : Memory) : Nat → List Byte → Memory
  | _, [] => m
  | a, b :: bs => writeBytes (if a < memSize then m.set a b else m) (a + 1) bs

/-- The state with a table word's bytes stored at `pc`, where the next step fetches: memory alone changes. -/
def State.placeWord (s : State) (nbits w : Nat) : State :=
  s.setMem (writeBytes s.mem s.pc.toNat (tableBytes nbits w))

end Sys2Proof.Machine
end

