-- ==== Sys2Proof/Machine/Cycle.lean ====
section
/-!
DEFINITION. One pass of the fetch-decode-execute cycle in a running engine (R62 to R69).
-/

namespace Sys2Proof.Machine

/-- R69's `step()` after its first line: fetch (`ir` stays as it was when `pc` is beyond memory, R62), dispatch before
operands (R65), operand bytes (R66), then the instruction. -/
def State.cycle (s : State) : Result :=
  if s.pc.toNat < memSize then
    match s.decodeAtPc with
    | .ok i _ => exec i s.fetched
    | .rejected r => .next (s.fetched.raise (s.rejectCause r))
  else .next (s.raise (s.rejectCause .noByte))

end Sys2Proof.Machine
end

