-- ==== Sys2Proof/Machine/Step.lean ====
section
/-!
DEFINITION. The step of the machine (R61, R69).
-/

namespace Sys2Proof.Machine

/-- One step: the engine takes one if and only if `run` = `Running`; in `Halted` and `Faulted` no step is enabled (R61;
how the model says so is log 21). -/
def step (s : State) : Host.Outcome State Fault Refusal :=
  match s.run with
  | .running => s.cycle
  | .halted => .fault .halted
  | .faulted => .fault .faulted

/-- `s` with a table word stored at `pc`, so that the next step of a running engine fetches and runs it (log 27). -/
def State.withFetchWord (s : State) (nbits w : Nat) : State := s.placeWord nbits w

end Sys2Proof.Machine
end

