-- ==== Sys2Proof/Machine/HostPort.lean ====
section
/-!
DEFINITION. The host interface (R113): reset (R105), the loader (R107), the output channel's text (R74), the status,
the error report (R104) and its cause codes (R86).
-/

namespace Sys2Proof.Machine

/-- A reset of a machine in any state, with the spec's reset values (R105): "it keeps nothing, the loaded program
included" (D21, log 33). The parameters are those the engine was built with. -/
def State.hostReset (s : State) : State :=
  .resetWith s.cfg (Vector.replicate 8 0x00) ⟨false, false, false⟩ []

/-- The loader's writes: the bytes to the cells `a`, `a + 1`, … in order (R107). -/
def loadBytes (m : Memory) : Nat → List Byte → Memory
  | _, [] => m
  | a, b :: bs => loadBytes (m.set a b) (a + 1) bs

/-- The loader: the program's bytes to the cells from 0 up, and nothing but memory; more than 256 bytes are refused
before any step (R107; D19, log 19). -/
def State.load (s : State) (p : List Byte) : Except FaultCause State :=
  if p.length ≤ memSize then .ok (s.setMem (loadBytes s.mem 0 p)) else .error (.outOfBoundsAccess .mem memSize)

/-- The launch state of a program: the reset state with the program in the low cells (R107). -/
def launch (p : List Byte) : Except FaultCause State := State.reset.load p

/-- The text of one emitted byte: its value in decimal, no sign and no leading zero (R74; D17, log 17). -/
def renderByte (v : Byte) : String := toString v.toNat

/-- The output channel: one line for each byte PRN emitted, oldest first (R74, R113). -/
def State.outputLines (s : State) : List String := s.out.map renderByte

/-- The status the host reads (R113). -/
def State.status (s : State) : RunState := s.run

/-- The numeric cause code of a fault (R86; D22, log 22). No instruction reads it. -/
def FaultCause.code : FaultCause → Nat
  | .unknownOpcode _ => 1
  | .outOfBoundsAccess _ _ => 2
  | .stackOverflow _ => 3
  | .stackUnderflow _ => 4
  | .reservedRegisterWrite _ => 5

/-- The error report: the fault record once `run` = `Faulted`, none otherwise (R104). -/
def State.errorReport (s : State) : Option FaultRecord :=
  match s.run with
  | .faulted => s.fault
  | .running | .halted => none

/-- The final state the host may read once the engine has stopped: registers, `pc`, flags packed, memory (R113). -/
def State.finalState (s : State) : Option (Vector Byte 8 × PcWord × Byte × Memory) :=
  match s.run with
  | .running => none
  | .halted | .faulted => some (s.regs, s.pc, s.flags.pack, s.mem)

end Sys2Proof.Machine
end

