-- ==== Sys2Proof/Machine/Listing.lean ====
section
/-!
DEFINITION. The spec's way of writing an instruction (R57; D23, log 31): a register is `R` and its index in decimal,
an immediate a decimal number. The bytes of each form are the encoder's.
-/

namespace Sys2Proof.Machine

/-- A register operand as written. -/
def regText (a : Byte) : String := "R" ++ toString a.toNat

/-- An instruction as written in R57's table. -/
def listing : Instr → String
  | .hlt => "HLT"
  | .ldi a b => "LDI " ++ regText a ++ ", " ++ toString b.toNat
  | .prn a => "PRN " ++ regText a
  | .mul a b => "MUL " ++ regText a ++ ", " ++ regText b
  | .push a => "PUSH " ++ regText a
  | .pop a => "POP " ++ regText a
  | .call a => "CALL " ++ regText a
  | .ret => "RET"
  | .jmp a => "JMP " ++ regText a
  | .cmp a b => "CMP " ++ regText a ++ ", " ++ regText b
  | .jeq a => "JEQ " ++ regText a
  | .jne a => "JNE " ++ regText a

end Sys2Proof.Machine
end

