-- ==== Sys2Proof/Safety.lean ====
section
/-!
DEFINITION. The terms claims are stated in: the invariant of the machine, what a step leaves unchanged, the state a
fault leaves, runs and safe runs.
-/

namespace Sys2Proof.Machine

/-- What holds of every state a run reaches: R19's range of `pc`, R23's "Otherwise the record is none" and its `pc`,
R53's constraints on the parameters, and the canonical form of memory. -/
structure State.Inv (s : State) : Prop where
  memCanonical : s.mem.wf
  pcInRange : s.pc.toNat ≤ 256
  recordWhenFaulted : s.run = .faulted ↔ s.fault.isSome = true
  recordNamesPc : ∀ r, s.fault = some r → r.pc = s.pc
  opcodesAdmissible : s.cfg.opcodes.admissible = true

/-- Every cell reads as before. -/
def SameMem (s t : State) : Prop := ∀ a, t.byteAt a = s.byteAt a

/-- Every cell but `x` reads as before. -/
def SameMemExcept (x : Nat) (s t : State) : Prop := ∀ a, a ≠ x → t.byteAt a = s.byteAt a

/-- Every register reads as before. -/
def SameRegs (s t : State) : Prop := ∀ j, t.reg j = s.reg j

/-- Every register that is not in the list reads as before. -/
def SameRegsExcept (ks : List RegIdx) (s t : State) : Prop := ∀ j, j ∉ ks → t.reg j = s.reg j

/-- The run state, the fault record, the instruction register and the parameters are as before. -/
def SameControl (s t : State) : Prop := t.run = s.run ∧ t.fault = s.fault ∧ t.ir = s.ir ∧ t.cfg = s.cfg

/-- All three flags are as before. -/
def SameFlags (s t : State) : Prop := t.flags = s.flags

/-- The output log is as before. -/
def SameOut (s t : State) : Prop := t.out = s.out

/-- The state a fault of kind and information `c` leaves, field by field (R92, R93). -/
def State.faultedWith (s : State) (c : FaultCause) : State where
  mem := s.mem
  regs := s.regs
  pc := s.pc
  flags := s.flags
  run := .faulted
  fault := some { cause := c, pc := s.pc }
  ir := s.ir
  out := s.out
  cfg := s.cfg

/-- The destination register is one `dest` lets an instruction write (R17). -/
def State.writable (s : State) (i : RegIdx) : Prop := i = s.cfg.spIndex → s.cfg.spProtect = .none

/-- The bytes at `pc` decode to the instruction `i` (R48, R62, R66). -/
def State.Fetches (s : State) (i : Instr) : Prop :=
  ∃ rest, decode s.cfg.opcodes (bytesFrom s.mem maxWidth s.pc.toNat) = .ok i rest

/-- What the fault `c`, recorded of the state `s`, claims of it: R86's column "when" (R87 to R91), with the one address
that can be out of range in a run (R34). -/
def State.Warrants (s : State) : FaultCause → Prop
  | .unknownOpcode b => b = s.byteAt s.pc.toNat ∧ ∀ o, s.cfg.opcodes.byte o ≠ b
  | .outOfBoundsAccess .mem x => x = 256 ∧ 254 ≤ s.pc.toNat
  | .outOfBoundsAccess .reg x => 7 < x ∧ ∃ i b, s.Fetches i ∧ b ∈ i.registerOperands ∧ b.toNat = x
  | .stackOverflow v => v = -1 ∧ s.sp = 0 ∧ ∃ a, s.Fetches (.push a) ∨ s.Fetches (.call a)
  | .stackUnderflow v => v = 256 ∧
      (s.sp = 255 ∧ (s.Fetches .ret ∨ ∃ a, s.Fetches (.pop a)) ∨
       s.byteAt s.sp.toNat = 255 ∧ s.cfg.spProtect = .none ∧ ∃ a, a.toNat = s.cfg.spIndex.val ∧ s.Fetches (.pop a))
  | .reservedRegisterWrite k => k = s.cfg.spIndex ∧ s.cfg.spProtect = .faultOnWrite ∧
      ∃ a b, a.toNat = k.val ∧ (s.Fetches (.ldi a b) ∨ s.Fetches (.mul a b) ∨ s.Fetches (.pop a))

/-- `t` is reached from `s` by a run: repeated steps (R112). -/
inductive Reaches (s : State) : State → Prop where
  | refl : Reaches s s
  | tail {t u : State} (h : Reaches s t) (hu : step t = .next u) : Reaches s u

/-- A safe run: no state reached from `s` is faulted, so the run halts or goes on for ever (R112). -/
def State.SafeRun (s : State) : Prop := ∀ t, Reaches s t → t.run ≠ .faulted

/-- The outcome with the output log replaced, for comparing two runs. -/
def withOut (o : List Byte) : Result → Result
  | .next t => .next { t with out := o }
  | .fault r => .fault r
  | .refused r => .refused r

/-- The outcome with the instruction register replaced, for comparing two runs. -/
def withIr (b : Byte) : Result → Result
  | .next t => .next { t with ir := b }
  | .fault r => .fault r
  | .refused r => .refused r

/-- Two states that agree on everything but Less and Greater. -/
def AgreeButLessGreater (s t : State) : Prop :=
  s.flags.equal = t.flags.equal ∧ s = { t with flags := s.flags }

end Sys2Proof.Machine
end

