-- ==== Sys2Proof/Certificates/Slice0/Obligations.lean ====
section
/-!
DEFINITION. The statements for the provers. An operand that names register `i` is written as a byte `a` with
`a.toNat = i.val`; `s.faultedWith c` is the state the fault `c` leaves (R92).
-/

open Sys2Proof Sys2Proof.Machine

/-! ### Memory, registers, operands -/

/-- R32: the access contract of the memory array, over every array and every address 0 to 255; a cell nothing has
written reads as the reset value. That nothing but memory changes is in the types: both take and give memory alone. -/
def Obligations.MemoryAccessContract : Prop :=
  ∀ (m : Memory) (a : Nat) (v : Byte), a ≤ 255 →
    memRead m a = .ok (m.get a) ∧
    (∃ m', memWrite m a v = .ok m' ∧ m'.get a = v ∧ memRead m' a = .ok v ∧ ∀ b, b ≠ a → m'.get b = m.get b) ∧
    memRead [] a = .ok (State.reset.byteAt a)

/-- 20_memory.md section 1, out-of-range addresses: fail, never wrap or clamp (the spec's choice D6, log 6). -/
def Obligations.AddressAbove255Faults : Prop :=
  ∀ (m : Memory) (a : Nat) (v : Byte), 255 < a →
    memRead m a = .error (.outOfBoundsAccess .mem a) ∧ memWrite m a v = .error (.outOfBoundsAccess .mem a)

/-- R14: a write stores exactly the value, for each of the eight registers, and touches nothing else; the stack pointer
is an alias of one of them and nothing else is. -/
def Obligations.RegisterFileStoresExactly : Prop :=
  ∀ (s : State) (i : RegIdx) (v : Byte),
    (s.setReg i v).reg i = v ∧ SameRegsExcept [i] s (s.setReg i v) ∧
    (s.setReg i v = { s with regs := (s.setReg i v).regs }) ∧
    (s.setReg s.cfg.spIndex v).sp = v ∧ (i ≠ s.cfg.spIndex → (s.setReg i v).sp = s.sp)

/-- 30_encoding.md section 2: the register index is the whole operand byte; LDI's immediate is the whole byte and every
value of it is legal. -/
def Obligations.OperandBytesAreWhole : Prop :=
  ∀ (s : State) (a b : Byte) (i : RegIdx),
    (a.toNat = i.val → regidx a = .ok i) ∧
    (7 < a.toNat → regidx a = .error (.outOfBoundsAccess .reg a.toNat)) ∧
    (a.toNat = i.val → s.writable i → ∃ t, exec (.ldi a b) s = .next t ∧ (t.reg i).toNat = b.toNat)

/-! ### Reset and the loader -/

/-- 10_state.md section 7: every field after reset, for all values of the parameters, and at the defaults; and a reset of
a machine in any state keeps nothing of it but the parameters it was built with (70_reset_and_hazards.md section 1, the
spec's choice D21, log 33; that the parameters stand in the state is the model's, log 26). Zero for the registers, the
flags and memory is the spec's choice D12 (logs 12, 13), `ir` 0x00 is D24 (log 23), the record none is D22 (log 22). That
the default parameters are `.std`, with 7 the stack pointer's index, rests on 00_scope.md section 3: the opcode values are
D1 (log 1), `SP_INDEX` = 7 is D3 (log 3), `SP_PROTECT` = fault_on_write is D4 (log 4). -/
def Obligations.ResetGivesTheListedValues : Prop :=
  (∀ (c : Config) (rs : Vector Byte 8) (f : Flags) (m : Memory),
    let s := State.resetWith c rs f m
    s.pc = 0 ∧ s.sp = 0xF4 ∧ s.run = .running ∧ (∀ i, i ≠ c.spIndex → s.reg i = rs[i]) ∧ s.flags = f ∧
      (∀ a, s.byteAt a = m.get a) ∧ s.ir = 0 ∧ s.fault = none ∧ s.out = [] ∧ s.cfg = c) ∧
  (∀ i, i ≠ 7 → State.reset.reg i = 0) ∧ State.reset.sp = 244 ∧ State.reset.flags = ⟨false, false, false⟩ ∧
  (∀ a, State.reset.byteAt a = 0) ∧ State.reset.cfg = .std ∧
  ∀ s : State,
    let r := s.hostReset
    r.pc = 0 ∧ r.sp = 0xF4 ∧ r.run = .running ∧ (∀ i, i ≠ s.cfg.spIndex → r.reg i = 0) ∧
      r.flags = ⟨false, false, false⟩ ∧ (∀ a, r.byteAt a = 0) ∧ r.ir = 0 ∧ r.fault = none ∧ r.out = [] ∧ r.cfg = s.cfg

/-- The invariant holds after every reset, whatever the admissible parameters, and after a reset of a machine in any
state. -/
def Obligations.ResetMeetsInvariant : Prop :=
  (∀ (c : Config) (rs : Vector Byte 8) (f : Flags) (m : Memory),
    c.opcodes.admissible = true → m.wf → (State.resetWith c rs f m).Inv) ∧
  State.reset.Inv ∧
  ∀ s : State, s.cfg.opcodes.admissible = true → s.hostReset.Inv

/-- 70_reset_and_hazards.md section 2: the loader's contract. That a longer sequence is refused is the spec's choice
(D19, log 19). -/
def Obligations.LoaderPlacesTheProgram : Prop :=
  ∀ (s : State) (p : List Byte),
    (p.length ≤ 256 → ∃ t, s.load p = .ok t ∧ (∀ k (h : k < p.length), t.byteAt k = p[k]) ∧
      (∀ k, p.length ≤ k → t.byteAt k = s.byteAt k) ∧ t = { s with mem := t.mem } ∧ (s.Inv → t.Inv)) ∧
    (256 < p.length → s.load p = .error (.outOfBoundsAccess .mem 256))

/-! ### Encoding -/

/-- 30_encoding.md section 3 (values: the spec's choice D1, log 1): words written out from the tables decode to the
instructions they stand for; and the byte 0xA0, the parent machine's ADD, is an unknown opcode (30_encoding.md section 4,
the spec's choices D15 and D16, log 16). A sanity statement. -/
def Obligations.TableWordsDecode : Prop :=
  decode .std [0x01] = .ok .hlt [] ∧ decode .std [0x82, 0x03, 0xC8] = .ok (.ldi 3 200) [] ∧
  decode .std [0x47, 0x06, 0x01] = .ok (.prn 6) [0x01] ∧ decode .std [0xA2, 0x00, 0x01] = .ok (.mul 0 1) [] ∧
  decode .std [0x45, 0x02] = .ok (.push 2) [] ∧ decode .std [0x50, 0x01] = .ok (.call 1) [] ∧
  decode .std [0x56, 0x03] = .ok (.jne 3) [] ∧ decode .std [0xA0, 0x00, 0x01] = .rejected (.unknownOpcode 0xA0)

/-- Decoding the encoding of any instruction, with every operand byte at every value, gives it back, whatever follows
it and whatever admissible opcode values the engine has. -/
def Obligations.DecodeOfEncodeIsIdentity : Prop :=
  ∀ (m : OpcodeMap) (i : Instr) (rest : List Byte), m.admissible = true → decode m (encode m i ++ rest) = .ok i rest

/-- Every sequence of bytes that decodes is the encoding of what it decodes to: no two encodings of one instruction. -/
def Obligations.EncodeOfDecodeIsIdentity : Prop :=
  ∀ (m : OpcodeMap) (bs : List Byte) (i : Instr) (rest : List Byte), decode m bs = .ok i rest → encode m i ++ rest = bs

/-- 30_encoding.md section 3: the opcode values of the table (the spec's choice D1, log 1) meet all the source's
constraints: distinct, bits 7:6 the operand count, bit 4 the sets-PC mark. -/
def Obligations.OpcodeValuesMeetConstraints : Prop :=
  (Op.all.map OpcodeMap.std.byte).Nodup ∧
  (∀ o, o ∈ [Op.hlt, .ret] → nopsField (OpcodeMap.std.byte o) = 0) ∧
  (∀ o, o ∈ [Op.prn, .push, .pop, .call, .jmp, .jeq, .jne] → nopsField (OpcodeMap.std.byte o) = 1) ∧
  (∀ o, o ∈ [Op.ldi, .mul, .cmp] → nopsField (OpcodeMap.std.byte o) = 2) ∧
  (∀ o, selfPcBit (OpcodeMap.std.byte o) = decide (o ∈ [Op.call, .ret, .jmp, .jeq, .jne])) ∧
  OpcodeMap.std.admissible = true

/-- 30_encoding.md section 4: a byte is rejected as an unknown opcode exactly when it is none of the twelve values,
whatever follows it; with the default values 244 of the 256 bytes are unknown, every byte with operand count 3 among
them (D15, D16, log 16). -/
def Obligations.UnknownOpcodesAreAllOthers : Prop :=
  (∀ (m : OpcodeMap) (b : Byte) (bs : List Byte),
    decode m (b :: bs) = .rejected (.unknownOpcode b) ↔ ∀ o, m.byte o ≠ b) ∧
  (∀ (m : OpcodeMap) (b : Byte) (bs : List Byte),
    m.admissible = true → nopsField b = 3 → decode m (b :: bs) = .rejected (.unknownOpcode b)) ∧
  ((List.range 256).filter fun n => (decodeOp .std (BitVec.ofNat 8 n)).isNone).length = 244

/-- R63: bits 7:6 of the opcode byte alone give the operand count and the width, for all admissible opcode values. -/
def Obligations.WidthFromOpcodeBits : Prop :=
  ∀ (m : OpcodeMap) (b : Byte) (bs : List Byte), nopsField b ≤ 3 ∧
    ∀ (i : Instr) (rest : List Byte), m.admissible = true → decode m (b :: bs) = .ok i rest →
      i.width = nopsField b + 1 ∧ (b :: bs).length = i.width + rest.length

/-! ### The engine cycle -/

/-- A step runs the decoded instruction: when the bytes at `pc` decode to `i`, the step of a running engine is `exec i`
in the state whose instruction register holds the opcode byte. -/
def Obligations.StepRunsTheDecodedInstruction : Prop :=
  ∀ (s : State) (i : Instr), s.run = .running → s.Fetches i →
    step s = exec i { s with ir := s.byteAt s.pc.toNat }

/-- The same in terms of memory alone: an instruction whose encoded bytes stand in the cells from `pc` up is the one
the step runs. -/
def Obligations.EncodedBytesInMemoryRun : Prop :=
  ∀ (s : State) (i : Instr), s.run = .running → s.cfg.opcodes.admissible = true → s.pc.toNat + i.width ≤ 256 →
    (∀ k (h : k < (encode s.cfg.opcodes i).length), s.byteAt (s.pc.toNat + k) = (encode s.cfg.opcodes i)[k]) →
    step s = exec i { s with ir := s.cfg.opcodes.byte i.op }

/-- R61: a step is taken exactly in a running engine. -/
def Obligations.StepEnabledExactlyWhenRunning : Prop :=
  ∀ s : State, (∃ t, step s = .next t) ↔ s.run = .running

/-- R62: the fetch beyond memory faults and leaves `ir`; otherwise `ir` holds the byte at `pc` after the step. -/
def Obligations.FetchLoadsInstructionRegister : Prop :=
  ∀ s : State, s.run = .running →
    (255 < s.pc.toNat → step s = .next (s.faultedWith (.outOfBoundsAccess .mem s.pc.toNat))) ∧
    (s.pc.toNat ≤ 255 → ∀ t, step s = .next t → t.ir = s.byteAt s.pc.toNat)

/-- 40_engine_cycle.md section 2, dispatch: an unknown opcode faults before any operand is looked at, in cell 255 too
(the order is the spec's choice D11, log 11). -/
def Obligations.UnknownOpcodeFaultsAtDispatch : Prop :=
  ∀ s : State, s.run = .running → s.pc.toNat ≤ 255 → (∀ o, s.cfg.opcodes.byte o ≠ s.byteAt s.pc.toNat) →
    step s = .next ({ s with ir := s.byteAt s.pc.toNat }.faultedWith (.unknownOpcode (s.byteAt s.pc.toNat)))

/-- 40_engine_cycle.md section 2, operand fetch: an operand that would lie beyond cell 255 faults with the lowest such
address, for every instruction with operands, taken jump or not (the spec's choice D18, log 18). -/
def Obligations.OperandBeyondMemoryFaults : Prop :=
  ∀ (s : State) (o : Op), s.run = .running → s.cfg.opcodes.admissible = true → s.pc.toNat ≤ 255 →
    s.cfg.opcodes.byte o = s.byteAt s.pc.toNat → 255 < s.pc.toNat + o.operandCount →
    step s = .next ({ s with ir := s.byteAt s.pc.toNat }.faultedWith (.outOfBoundsAccess .mem 256))

/-- 40_engine_cycle.md sections 2 and 3: after a step that did not fault, `pc` has advanced by the width that bits 7:6
give when bit 4 is clear, without wrapping; a conditional jump not taken has advanced by 2 whatever its bit 4 (C1, log 28). -/
def Obligations.AutoAdvanceFollowsOpcodeBits : Prop :=
  ∀ (s t : State) (i : Instr), s.cfg.opcodes.admissible = true → s.run = .running → s.Fetches i → step s = .next t →
    t.run ≠ .faulted →
    (selfPcBit (s.byteAt s.pc.toNat) = false → i.op ≠ .jeq → i.op ≠ .jne →
      t.pc.toNat = s.pc.toNat + nopsField (s.byteAt s.pc.toNat) + 1) ∧
    (i.op = .jeq → s.flags.equal = false → t.pc.toNat = s.pc.toNat + 2) ∧
    (i.op = .jne → s.flags.equal = true → t.pc.toNat = s.pc.toNat + 2)

/-! ### What each instruction does, completely -/

/-- R72: HLT halts, advances `pc` by 1 (to 256 from cell 255, without a fault) and changes nothing else; it is the only
way to `Halted`; nothing follows. -/
def Obligations.HltAloneHalts : Prop :=
  (∀ s : State, exec .hlt s = .next { s with run := .halted, pc := s.pc + 1 }) ∧
  (∀ s : State, s.run = .running → s.Fetches .hlt →
    ∃ t, step s = .next t ∧ t.run = .halted ∧ t.pc.toNat = s.pc.toNat + 1 ∧ t.fault = s.fault ∧ SameRegs s t ∧
      SameFlags s t ∧ SameMem s t ∧ SameOut s t) ∧
  (∀ s t : State, step s = .next t → t.run = .halted → s.run = .running ∧ s.Fetches .hlt) ∧
  (∀ s t : State, s.run = .halted → step s ≠ .next t)

/-- 41_basic_hlt_ldi_prn.md, LDI: completes for every destination it may write; the stack pointer is one when
`SP_PROTECT` = none (D4, log 4). -/
def Obligations.LdiLoadsImmediate : Prop :=
  ∀ (s : State) (a b : Byte) (i : RegIdx), a.toNat = i.val → s.writable i →
    ∃ t, exec (.ldi a b) s = .next t ∧ t.reg i = b ∧ SameRegsExcept [i] s t ∧ t.pc = s.pc + 3 ∧ SameFlags s t ∧
      SameMem s t ∧ SameOut s t ∧ SameControl s t

/-- 41_basic_hlt_ldi_prn.md, PRN: appends the register's byte; it never waits and never fails (D25, log 24). -/
def Obligations.PrnEmitsRegister : Prop :=
  ∀ (s : State) (a : Byte) (i : RegIdx), a.toNat = i.val →
    ∃ t, exec (.prn a) s = .next t ∧ t.out = s.out ++ [s.reg i] ∧ t.pc = s.pc + 2 ∧ SameRegs s t ∧ SameFlags s t ∧
      SameMem s t ∧ SameControl s t

/-- 42_alu_mul.md, MUL: the low 8 bits of the unsigned product, both reads before the write (same register twice: the
square), no flag (destination protection: D4, log 4). -/
def Obligations.MulMultipliesMod256 : Prop :=
  ∀ (s : State) (a b : Byte) (i j : RegIdx), a.toNat = i.val → b.toNat = j.val → s.writable i →
    ∃ t, exec (.mul a b) s = .next t ∧ (t.reg i).toNat = (s.reg i).toNat * (s.reg j).toNat % 256 ∧
      SameRegsExcept [i] s t ∧ t.pc = s.pc + 3 ∧ SameFlags s t ∧ SameMem s t ∧ SameOut s t ∧ SameControl s t

/-- 43_stack_push_pop.md, PUSH: the stack pointer down by one, exactly; the register's byte, read after the decrement,
in the cell it then names (so PUSH of the stack pointer register pushes the decremented value: the spec's inference,
log 29); every other cell and register as before. -/
def Obligations.PushStoresBelowTop : Prop :=
  ∀ (s : State) (a : Byte) (i : RegIdx), a.toNat = i.val → s.sp ≠ 0 →
    ∃ t, exec (.push a) s = .next t ∧ t.sp.toNat + 1 = s.sp.toNat ∧
      t.byteAt (s.sp - 1).toNat = (if i = s.cfg.spIndex then s.sp - 1 else s.reg i) ∧
      SameMemExcept (s.sp - 1).toNat s t ∧ SameRegsExcept [s.cfg.spIndex] s t ∧ t.pc = s.pc + 2 ∧ SameFlags s t ∧
      SameOut s t ∧ SameControl s t

/-- 43_stack_push_pop.md, POP into a register other than the stack pointer: the byte at the top, the stack pointer up
by one, exactly; memory unchanged; no empty-stack check. -/
def Obligations.PopLoadsTop : Prop :=
  ∀ (s : State) (a : Byte) (i : RegIdx), a.toNat = i.val → i ≠ s.cfg.spIndex → s.sp ≠ 255 →
    ∃ t, exec (.pop a) s = .next t ∧ t.reg i = s.byteAt s.sp.toNat ∧ t.sp.toNat = s.sp.toNat + 1 ∧
      SameRegsExcept [i, s.cfg.spIndex] s t ∧ t.pc = s.pc + 2 ∧ SameFlags s t ∧ SameMem s t ∧ SameOut s t ∧
      SameControl s t

/-- 43_stack_push_pop.md, POP into the stack pointer with `SP_PROTECT` = none: the popped byte + 1, or the underflow
fault when the stack pointer or that byte is 255. -/
def Obligations.PopIntoUnprotectedStackPointer : Prop :=
  ∀ (s : State) (a : Byte), a.toNat = s.cfg.spIndex.val → s.cfg.spProtect = .none →
    (s.sp ≠ 255 → s.byteAt s.sp.toNat ≠ 255 →
      ∃ t, exec (.pop a) s = .next t ∧ t.sp.toNat = (s.byteAt s.sp.toNat).toNat + 1 ∧
        SameRegsExcept [s.cfg.spIndex] s t ∧ t.pc = s.pc + 2 ∧ SameFlags s t ∧ SameMem s t ∧ SameOut s t ∧
        SameControl s t) ∧
    (s.sp = 255 ∨ s.byteAt s.sp.toNat = 255 → exec (.pop a) s = .next (s.faultedWith (.stackUnderflow 256)))

/-- 44_call_ret_jmp.md, CALL: `pc + 2` in the cell below the top, the stack pointer down by one, `pc` the register read
after the push (the one stack in memory is D5, log 5; the order is the spec's inference, log 29). -/
def Obligations.CallPushesReturnAddress : Prop :=
  ∀ (s : State) (a : Byte) (i : RegIdx), a.toNat = i.val → s.pc.toNat + 2 ≤ 255 → s.sp ≠ 0 →
    ∃ t, exec (.call a) s = .next t ∧ t.sp.toNat + 1 = s.sp.toNat ∧
      (t.byteAt (s.sp - 1).toNat).toNat = s.pc.toNat + 2 ∧
      t.pc.toNat = (if i = s.cfg.spIndex then s.sp - 1 else s.reg i).toNat ∧ SameMemExcept (s.sp - 1).toNat s t ∧
      SameRegsExcept [s.cfg.spIndex] s t ∧ SameFlags s t ∧ SameOut s t ∧ SameControl s t

/-- 44_call_ret_jmp.md, RET: `pc` the byte at the top, whoever pushed it; the stack pointer up by one. -/
def Obligations.RetPopsProgramCounter : Prop :=
  ∀ s : State, s.sp ≠ 255 →
    ∃ t, exec .ret s = .next t ∧ t.pc.toNat = (s.byteAt s.sp.toNat).toNat ∧ t.sp.toNat = s.sp.toNat + 1 ∧
      SameRegsExcept [s.cfg.spIndex] s t ∧ SameFlags s t ∧ SameMem s t ∧ SameOut s t ∧ SameControl s t

/-- R82: JMP sets `pc` to the register's byte and changes nothing else; an index above 7 and an operand beyond memory
fault; a jump to its own address leaves the state as it is. -/
def Obligations.JmpSetsProgramCounter : Prop :=
  (∀ (s : State) (a : Byte) (i : RegIdx), a.toNat = i.val →
    exec (.jmp a) s = .next { s with pc := BitVec.ofNat 9 (s.reg i).toNat }) ∧
  (∀ (s : State) (a : Byte), 7 < a.toNat →
    exec (.jmp a) s = .next (s.faultedWith (.outOfBoundsAccess .reg a.toNat))) ∧
  (∀ s : State, s.run = .running → s.cfg.opcodes.admissible = true → s.pc.toNat = 255 →
    s.byteAt 255 = s.cfg.opcodes.jmp →
    step s = .next ({ s with ir := s.cfg.opcodes.jmp }.faultedWith (.outOfBoundsAccess .mem 256))) ∧
  (∀ (s : State) (a : Byte) (i : RegIdx), a.toNat = i.val → (s.reg i).toNat = s.pc.toNat → exec (.jmp a) s = .next s)

/-- 45_compare_branch.md, CMP: all three flags, whatever they were, from the unsigned numbers; exactly one is set. That
Less is "first less than second" is the spec's choice (D13, log 14). -/
def Obligations.CmpRecomputesAllFlags : Prop :=
  ∀ (s : State) (a b : Byte) (i j : RegIdx), a.toNat = i.val → b.toNat = j.val →
    ∃ t, exec (.cmp a b) s = .next t ∧ (t.flags.equal = true ↔ s.reg i = s.reg j) ∧
      (t.flags.less = true ↔ (s.reg i).toNat < (s.reg j).toNat) ∧
      (t.flags.greater = true ↔ (s.reg j).toNat < (s.reg i).toNat) ∧ t.flags.exactlyOne = true ∧
      t.pc = s.pc + 3 ∧ SameRegs s t ∧ SameMem s t ∧ SameOut s t ∧ SameControl s t

/-- 45_compare_branch.md, JEQ and JNE: each completes in every flag state; exactly one of them is taken, on Equal alone;
taken, `pc` is the register, not taken, `pc` advances by 2; nothing else changes. -/
def Obligations.ConditionalJumpsReadEqual : Prop :=
  ∀ (s : State) (a : Byte) (i : RegIdx), a.toNat = i.val →
    (∃ t, exec (.jeq a) s = .next t ∧
      t.pc = (if s.flags.equal then BitVec.ofNat 9 (s.reg i).toNat else s.pc + 2) ∧
      SameRegs s t ∧ SameFlags s t ∧ SameMem s t ∧ SameOut s t ∧ SameControl s t) ∧
    (∃ t, exec (.jne a) s = .next t ∧
      t.pc = (if s.flags.equal then s.pc + 2 else BitVec.ofNat 9 (s.reg i).toNat) ∧
      SameRegs s t ∧ SameFlags s t ∧ SameMem s t ∧ SameOut s t ∧ SameControl s t)

/-! ### Where an instruction faults -/

/-- 30_encoding.md section 2 and 60_exceptions.md section 1: the first register-index operand above 7 faults with its
value, before anything else the instruction does, for every instruction that has one; a jump not taken included (D18, log
18). That of two bad operands the first is the one recorded, and either one before the write to a protected stack pointer,
is the spec's choice of order D11 (60_exceptions.md section 2, log 11). -/
def Obligations.FirstBadRegisterOperandFaults : Prop :=
  ∀ (s : State) (i : Instr) (b : Byte), i.registerOperands.find? (fun x => decide (7 < x.toNat)) = some b →
    exec i s = .next (s.faultedWith (.outOfBoundsAccess .reg b.toNat))

/-- 60_exceptions.md section 1: LDI, MUL and POP into the protected stack pointer register fault and write nothing,
after the register indices are validated (the spec's choices D4 and D11, logs 4 and 11). -/
def Obligations.ProtectedStackPointerWriteFaults : Prop :=
  ∀ (s : State) (a b : Byte), a.toNat = s.cfg.spIndex.val → s.cfg.spProtect = .faultOnWrite →
    exec (.ldi a b) s = .next (s.faultedWith (.reservedRegisterWrite s.cfg.spIndex)) ∧
    exec (.pop a) s = .next (s.faultedWith (.reservedRegisterWrite s.cfg.spIndex)) ∧
    (b.toNat ≤ 7 → exec (.mul a b) s = .next (s.faultedWith (.reservedRegisterWrite s.cfg.spIndex)))

/-- 60_exceptions.md section 1 and 43_stack_push_pop.md: PUSH and CALL with `SP` = 0, POP and RET with `SP` = 255 (the
names of the two are D9, log 9; CALL's return address is checked first, D11, log 11). -/
def Obligations.StackExcursionsFault : Prop :=
  ∀ (s : State) (a : Byte) (i : RegIdx), a.toNat = i.val →
    (s.sp = 0 → exec (.push a) s = .next (s.faultedWith (.stackOverflow (-1)))) ∧
    (s.sp = 0 → s.pc.toNat + 2 ≤ 255 → exec (.call a) s = .next (s.faultedWith (.stackOverflow (-1)))) ∧
    (s.sp = 255 → i ≠ s.cfg.spIndex → exec (.pop a) s = .next (s.faultedWith (.stackUnderflow 256))) ∧
    (s.sp = 255 → exec .ret s = .next (s.faultedWith (.stackUnderflow 256)))

/-- 44_call_ret_jmp.md, CALL: a return address above 255 faults as an address before the push, at `SP` = 0 too (the
spec's choices D8 and D11, logs 8 and 11). -/
def Obligations.CallReturnAddressBeyondMemoryFaults : Prop :=
  ∀ (s : State) (a : Byte) (i : RegIdx), a.toNat = i.val → 255 < s.pc.toNat + 2 →
    exec (.call a) s = .next (s.faultedWith (.outOfBoundsAccess .mem (s.pc.toNat + 2)))

/-! ### Rules of the whole machine -/

/-- Every step keeps the invariant: memory canonical, `pc` 0 to 256, a fault record exactly when faulted and naming
`pc`, the parameters admissible. The 9-bit range with 256 is the spec's choice (D7, log 7). -/
def Obligations.StepKeepsInvariant : Prop :=
  ∀ s t : State, s.Inv → step s = .next t → t.Inv

/-- 60_exceptions.md section 2: whatever the instruction and the fault, a faulting step sets `run`, writes the record with
the address of the faulting instruction, and changes nothing else but the instruction register. That registers, memory,
flags, `pc` and the output log are as before the step (the fault is precise) is the spec's choice D10 (log 10); how the
model says that no step follows is log 21. -/
def Obligations.FaultEntryChangesNothingElse : Prop :=
  ∀ s t : State, step s = .next t → t.run = .faulted →
    ∃ c, t.fault = some { cause := c, pc := s.pc } ∧ SameRegs s t ∧ SameMem s t ∧ SameFlags s t ∧ t.pc = s.pc ∧
      SameOut s t ∧ t.cfg = s.cfg ∧ (s.pc.toNat = 256 → t.ir = s.ir) ∧ ∀ u, step t ≠ .next u

/-- 60_exceptions.md section 1, the table of faults, and 20_memory.md section 1: what a recorded fault says is true of
the state before it, and the only address ever recorded is 256. What the faults are rests on the spec's own choices: the
protected stack pointer D4 (log 4), an address above 255 D6 (log 6), CALL's return address D8 (log 8), the names of the two
stack excursions D9 (log 9), every byte that is no opcode D15 and D16 (log 16), and its inference for POP into an
unprotected stack pointer (log 30). -/
def Obligations.RecordedFaultIsTrue : Prop :=
  ∀ (s t : State) (c : FaultCause), s.Inv → step s = .next t → t.fault = some { cause := c, pc := s.pc } → s.Warrants c

/-- 10_state.md section 4: only a CMP that completes writes the flags; a fault of any instruction does not; and for
every fetched CMP, whatever the flags were: with two register indices it completes and exactly one flag is set after it,
with an index above 7 it faults (30_encoding.md section 2) and the flags are as before. -/
def Obligations.FlagsWrittenOnlyByCompare : Prop :=
  ∀ s t : State, step s = .next t →
    (t.flags ≠ s.flags → t.run = .running ∧ ∃ a b, s.Fetches (.cmp a b)) ∧
    (t.run = .faulted → SameFlags s t) ∧
    ∀ a b, s.Fetches (.cmp a b) →
      (a.toNat ≤ 7 → b.toNat ≤ 7 → t.run = .running ∧ t.flags.exactlyOne = true) ∧
      (7 < a.toNat ∨ 7 < b.toNat → t.run = .faulted ∧ SameFlags s t)

/-- 10_state.md section 4: no instruction reads Less or Greater: two states that differ only in them step to states that
differ at most in them. -/
def Obligations.LessGreaterAreNeverRead : Prop :=
  ∀ s t : State, AgreeButLessGreater s t →
    (∀ s', step s = .next s' → ∃ t', step t = .next t' ∧ AgreeButLessGreater s' t')

/-- R26: the output log is empty at reset, only grows (by PRN alone, by its register's byte), and is never read: with
another log the step does the same. -/
def Obligations.OutputLogOnlyGrows : Prop :=
  State.reset.out = [] ∧
  (∀ s t : State, step s = .next t →
    t.out = s.out ∨ ∃ a i, s.Fetches (.prn a) ∧ a.toNat = i.val ∧ t.out = s.out ++ [s.reg i]) ∧
  (∀ (s : State) (o o' : List Byte), withOut o' (step { s with out := o }) = withOut o' (step s))

/-- 10_state.md section 6: the instruction register has no effect: with another value in it the step does the same (the
latch is the spec's choice D24, log 23). -/
def Obligations.InstructionRegisterIsNeverRead : Prop :=
  ∀ (s : State) (x y : Byte), withIr y (step { s with ir := x }) = withIr y (step s) ∧
    (s.pc.toNat ≤ 255 → step { s with ir := x } = step s ∨ s.run ≠ .running)

/-- 20_memory.md sections 1 and 5: nothing but PUSH and CALL changes memory, and they only the cell below the top of
the stack. -/
def Obligations.MemoryWrittenOnlyByPushAndCall : Prop :=
  ∀ s t : State, step s = .next t →
    SameMem s t ∨ (∃ a, s.Fetches (.push a) ∨ s.Fetches (.call a)) ∧ s.sp ≠ 0 ∧ SameMemExcept (s.sp - 1).toNat s t

/-- 10_state.md section 2, the table of writers: a register that changed is the destination LDI, MUL or POP names, or
the stack pointer under PUSH, POP, CALL or RET. -/
def Obligations.RegistersWrittenOnlyAsListed : Prop :=
  ∀ (s t : State) (j : RegIdx), step s = .next t → t.reg j ≠ s.reg j →
    (∃ a b, a.toNat = j.val ∧ (s.Fetches (.ldi a b) ∨ s.Fetches (.mul a b) ∨ s.Fetches (.pop a))) ∨
    j = s.cfg.spIndex ∧ (s.Fetches .ret ∨ ∃ a, s.Fetches (.push a) ∨ s.Fetches (.pop a) ∨ s.Fetches (.call a))

/-- 43_stack_push_pop.md and 10_state.md section 2: with the stack pointer protected (D4, log 4) a step moves it by one
at most, and never around the ends of its range. -/
def Obligations.StackPointerMovesByOne : Prop :=
  ∀ s t : State, s.cfg.spProtect = .faultOnWrite → step s = .next t →
    t.sp = s.sp ∨ t.sp.toNat + 1 = s.sp.toNat ∨ t.sp.toNat = s.sp.toNat + 1

/-- 00_scope.md section 3: no step changes the parameters (that they stand in the state is the model's choice, log 26). -/
def Obligations.ParametersAreFixed : Prop :=
  ∀ s t : State, step s = .next t → t.cfg = s.cfg

/-- 20_memory.md section 4: a byte PUSH stores is what the very next fetch of that cell reads, with nothing in between. -/
def Obligations.PushedByteIsFetchedNext : Prop :=
  ∀ (s t u : State) (a : Byte) (i : RegIdx), a.toNat = i.val → i ≠ s.cfg.spIndex → s.sp ≠ 0 →
    exec (.push a) s = .next t → t.run = .running → t.pc.toNat = (s.sp - 1).toNat → step t = .next u →
    u.ir = s.reg i

/-- 43_stack_push_pop.md, the source's property: PUSH then POP into the same register leaves every register, the stack
pointer among them, as it was, for every register but the stack pointer's (C6). -/
def Obligations.PushThenPopRestoresRegisters : Prop :=
  ∀ (s : State) (a : Byte) (i : RegIdx), a.toNat = i.val → i ≠ s.cfg.spIndex → s.sp ≠ 0 →
    ∃ t u, exec (.push a) s = .next t ∧ exec (.pop a) t = .next u ∧ SameRegs s u ∧ SameFlags s u

/-- 44_call_ret_jmp.md, the source's property: CALL followed by RET returns to the instruction after the CALL with the
whole register file as before, whatever register holds the target; the cell keeps the return address. -/
def Obligations.CallThenRetReturns : Prop :=
  ∀ (s : State) (a : Byte) (i : RegIdx), a.toNat = i.val → s.pc.toNat + 2 ≤ 255 → s.sp ≠ 0 →
    ∃ t u, exec (.call a) s = .next t ∧ exec .ret t = .next u ∧ u.pc.toNat = s.pc.toNat + 2 ∧ SameRegs s u ∧
      SameFlags s u ∧ (u.byteAt (s.sp - 1).toNat).toNat = s.pc.toNat + 2

/-- 45_compare_branch.md, the source's property: after CMP, JEQ jumps and JNE falls through when the registers are
equal, otherwise the reverse. -/
def Obligations.CompareThenBranch : Prop :=
  ∀ (s : State) (a b c : Byte) (i j k : RegIdx), a.toNat = i.val → b.toNat = j.val → c.toNat = k.val →
    ∃ t u v, exec (.cmp a b) s = .next t ∧ exec (.jeq c) t = .next u ∧ exec (.jne c) t = .next v ∧
      (s.reg i = s.reg j → u.pc.toNat = (s.reg k).toNat ∧ v.pc = s.pc + 5) ∧
      (s.reg i ≠ s.reg j → u.pc = s.pc + 5 ∧ v.pc.toNat = (s.reg k).toNat)

/-- R104: the host reads the record once `run` = `Faulted`, and none when `run` = `Halted`, in every state that meets
the invariant. -/
def Obligations.ErrorReportIsTheRecord : Prop :=
  ∀ s : State, s.Inv →
    (s.run = .faulted → ∃ r, s.errorReport = some r ∧ s.fault = some r ∧ r.pc = s.pc) ∧
    (s.run = .halted → s.errorReport = none ∧ s.fault = none)

/-- 70_reset_and_hazards.md section 5: every state a run reaches meets the invariant, and a run stops only halted, with
no record, or faulted, with one; otherwise a step is enabled. -/
def Obligations.RunEndsOnlyHaltedOrFaulted : Prop :=
  ∀ s t : State, s.Inv → Reaches s t →
    t.Inv ∧ ((∃ u, step t = .next u) ∧ t.fault = none ∨ t.run = .halted ∧ t.fault = none ∨
      t.run = .faulted ∧ ∃ r, t.fault = some r ∧ r.pc = t.pc)

/-- 40_engine_cycle.md section 2 and 44_call_ret_jmp.md: a jump to its own address is an endless, legal execution: every
state it reaches has a next step, is running, and differs from the first in nothing but the instruction register, which
may have latched the opcode byte (the latch is the spec's choice D24, log 23; that the parameters stand in the state is the
model's, log 26). -/
def Obligations.JumpToItselfRunsForever : Prop :=
  ∀ (s : State) (a : Byte) (i : RegIdx), s.run = .running → s.Fetches (.jmp a) → a.toNat = i.val →
    (s.reg i).toNat = s.pc.toNat →
    s.SafeRun ∧ ∀ t, Reaches s t →
      (∃ u, step t = .next u) ∧ t.run = .running ∧ t.pc = s.pc ∧ SameRegs s t ∧ SameFlags s t ∧ SameMem s t ∧
        SameOut s t ∧ t.fault = s.fault ∧ t.cfg = s.cfg ∧ (t.ir = s.ir ∨ t.ir = s.byteAt s.pc.toNat)
end

