-- ==== Sys2Proof/Laws/Memory.lean ====
section
/-!
SUPPORT. The laws of the memory array: what a cell reads as after each operation, and that every operation keeps the
canonical form.
-/

namespace Sys2Proof.Machine

/-! ### What a cell reads as -/

theorem Memory.get_erase (m : Memory) (a b : Nat) :
    (m.erase a).get b = if b = a then unlistedByte else m.get b := by
  induction m with
  | nil => simp [Memory.erase, Memory.get]
  | cons c m ih =>
    obtain ⟨x, w⟩ := c
    by_cases hx : x = a
    · have hc : Memory.erase ((x, w) :: m) a = Memory.erase m a := by simp [Memory.erase, hx]
      rw [hc, ih]
      by_cases hb : b = a
      · simp [hb]
      · have hxb : ¬ x = b := fun h => hb (h ▸ hx)
        simp [hb, Memory.get, hxb]
    · have hc : Memory.erase ((x, w) :: m) a = (x, w) :: Memory.erase m a := by simp [Memory.erase, hx]
      rw [hc]
      by_cases hxb : x = b
      · have hb : ¬ b = a := fun h => hx (hxb.trans h)
        simp [Memory.get, hxb, hb]
      · simp [Memory.get, hxb, ih]

theorem Memory.get_insert (m : Memory) (a b : Nat) (v : Byte) (h : ∀ c ∈ m, c.1 ≠ a) :
    (m.insert a v).get b = if b = a then v else m.get b := by
  induction m with
  | nil => simp [Memory.insert, Memory.get, eq_comm]
  | cons c m ih =>
    obtain ⟨x, w⟩ := c
    have hx : x ≠ a := h (x, w) (by simp)
    have ih := ih fun c hc => h c (by simp [hc])
    simp only [Memory.insert]
    split
    · simp [Memory.get, eq_comm]
    · by_cases hxb : x = b
      · have hb : ¬ b = a := fun h => hx (hxb.trans h)
        simp [Memory.get, hxb, hb]
      · simp [Memory.get, hxb, ih]

theorem Memory.mem_erase {m : Memory} {a : Nat} {c : Host.Cell} : c ∈ m.erase a ↔ c ∈ m ∧ c.1 ≠ a := by
  simp [Memory.erase]

/-- A cell after a write: the written one holds the value, every other one what it held (R32). -/
theorem Memory.get_set (m : Memory) (a b : Nat) (v : Byte) :
    (m.set a v).get b = if b = a then v else m.get b := by
  unfold Memory.set
  split
  · next h => simp [Memory.get_erase, h]
  · rw [Memory.get_insert _ _ _ _ fun c hc => (Memory.mem_erase.1 hc).2, Memory.get_erase]
    split <;> rfl

@[simp] theorem Memory.get_set_self (m : Memory) (a : Nat) (v : Byte) : (m.set a v).get a = v := by
  simp [Memory.get_set]

theorem Memory.get_set_of_ne (m : Memory) {a b : Nat} (v : Byte) (h : b ≠ a) : (m.set a v).get b = m.get b := by
  simp [Memory.get_set, h]

/-! ### The canonical form is kept -/

theorem Memory.wf_nil : Memory.wf [] := by simp [Memory.wf]

theorem Memory.wf_erase {m : Memory} (h : m.wf) (a : Nat) : (m.erase a).wf :=
  ⟨h.1.sublist (List.Sublist.map _ List.filter_sublist), fun c hc => h.2 c (Memory.mem_erase.1 hc).1⟩

theorem Memory.mem_insert {m : Memory} {a : Nat} {v : Byte} {c : Host.Cell} :
    c ∈ m.insert a v ↔ c = (a, v) ∨ c ∈ m := by
  induction m with
  | nil => simp [Memory.insert]
  | cons d m ih =>
    simp only [Memory.insert]
    split
    · simp
    · simp only [List.mem_cons, ih]
      tauto

theorem Memory.wf_insert {m : Memory} (h : m.wf) {a : Nat} {v : Byte} (ha : a < memSize) (hv : v ≠ unlistedByte)
    (hn : ∀ c ∈ m, c.1 ≠ a) : (m.insert a v).wf := by
  refine ⟨?_, fun c hc => ?_⟩
  · have hs := h.1
    clear h
    induction m with
    | nil => simp [Memory.insert]
    | cons c m ih =>
      obtain ⟨x, w⟩ := c
      have hx : x ≠ a := hn (x, w) (by simp)
      simp only [List.map_cons, List.pairwise_cons] at hs
      simp only [Memory.insert]
      split
      · next hlt =>
        simp only [List.map_cons, List.pairwise_cons]
        refine ⟨fun y hy => ?_, hs⟩
        rcases List.mem_cons.1 hy with rfl | hy
        · exact hlt
        · exact hlt.trans (hs.1 y hy)
      · next hge =>
        simp only [List.map_cons, List.pairwise_cons]
        refine ⟨fun y hy => ?_, ih (fun c hc => hn c (by simp [hc])) hs.2⟩
        obtain ⟨d, hd, rfl⟩ := List.mem_map.1 hy
        rcases Memory.mem_insert.1 hd with rfl | hd
        · change x < a
          omega
        · exact hs.1 _ (List.mem_map_of_mem hd)
  · rcases Memory.mem_insert.1 hc with rfl | hc
    · exact ⟨ha, hv⟩
    · exact h.2 c hc

theorem Memory.wf_set {m : Memory} (h : m.wf) {a : Nat} (ha : a < memSize) (v : Byte) : (m.set a v).wf := by
  unfold Memory.set
  split
  · exact Memory.wf_erase h a
  · next hv => exact Memory.wf_insert (Memory.wf_erase h a) ha hv fun c hc => (Memory.mem_erase.1 hc).2

theorem memWrite_wf {m m' : Memory} (h : m.wf) {a : Nat} {v : Byte} (hw : memWrite m a v = .ok m') : m'.wf := by
  unfold memWrite at hw
  split at hw
  · next ha =>
    cases hw
    exact Memory.wf_set h ha v
  · cases hw

theorem writeBytes_wf {m : Memory} (h : m.wf) (a : Nat) (bs : List Byte) : (writeBytes m a bs).wf := by
  induction bs generalizing m a with
  | nil => exact h
  | cons b bs ih =>
    refine ih ?_ (a + 1)
    split
    · next ha => exact Memory.wf_set h ha b
    · exact h

theorem loadBytes_wf {m : Memory} (h : m.wf) (a : Nat) (bs : List Byte) (hb : a + bs.length ≤ memSize) :
    (loadBytes m a bs).wf := by
  induction bs generalizing m a with
  | nil => exact h
  | cons b bs ih =>
    simp only [List.length_cons] at hb
    exact ih (Memory.wf_set h (by omega) b) (a + 1) (by omega)

/-- The reset memory has the canonical form. -/
theorem reset_mem_wf : State.reset.mem.wf := Memory.wf_nil

/-! ### An 8-bit address is never out of range (R34) -/

theorem byte_lt_memSize (b : Byte) : b.toNat < memSize := b.isLt

@[simp] theorem memRead_byte (m : Memory) (b : Byte) : memRead m b.toNat = .ok (m.get b.toNat) :=
  if_pos (byte_lt_memSize b)

@[simp] theorem memWrite_byte (m : Memory) (b : Byte) (v : Byte) : memWrite m b.toNat v = .ok (m.set b.toNat v) :=
  if_pos (byte_lt_memSize b)

end Sys2Proof.Machine
end

