-- ==== Sys2Proof/Laws/State.lean ====
section
/-!
SUPPORT. One lemma per field per update of the state, true by rfl, so that no later proof unfolds a record update; then
the same for the derived reads (a register, the stack pointer, a cell).
-/

namespace Sys2Proof.Machine

/-! ### `setReg` -/

@[simp] theorem State.mem_setReg (s : State) (i : RegIdx) (v : Byte) : (s.setReg i v).mem = s.mem := rfl
@[simp] theorem State.pc_setReg (s : State) (i : RegIdx) (v : Byte) : (s.setReg i v).pc = s.pc := rfl
@[simp] theorem State.flags_setReg (s : State) (i : RegIdx) (v : Byte) : (s.setReg i v).flags = s.flags := rfl
@[simp] theorem State.run_setReg (s : State) (i : RegIdx) (v : Byte) : (s.setReg i v).run = s.run := rfl
@[simp] theorem State.fault_setReg (s : State) (i : RegIdx) (v : Byte) : (s.setReg i v).fault = s.fault := rfl
@[simp] theorem State.ir_setReg (s : State) (i : RegIdx) (v : Byte) : (s.setReg i v).ir = s.ir := rfl
@[simp] theorem State.out_setReg (s : State) (i : RegIdx) (v : Byte) : (s.setReg i v).out = s.out := rfl
@[simp] theorem State.cfg_setReg (s : State) (i : RegIdx) (v : Byte) : (s.setReg i v).cfg = s.cfg := rfl
@[simp] theorem State.byteAt_setReg (s : State) (i : RegIdx) (v : Byte) (x : Nat) : (s.setReg i v).byteAt x = s.byteAt x := rfl

/-! ### `setSp` -/

@[simp] theorem State.mem_setSp (s : State) (v : Byte) : (s.setSp v).mem = s.mem := rfl
@[simp] theorem State.pc_setSp (s : State) (v : Byte) : (s.setSp v).pc = s.pc := rfl
@[simp] theorem State.flags_setSp (s : State) (v : Byte) : (s.setSp v).flags = s.flags := rfl
@[simp] theorem State.run_setSp (s : State) (v : Byte) : (s.setSp v).run = s.run := rfl
@[simp] theorem State.fault_setSp (s : State) (v : Byte) : (s.setSp v).fault = s.fault := rfl
@[simp] theorem State.ir_setSp (s : State) (v : Byte) : (s.setSp v).ir = s.ir := rfl
@[simp] theorem State.out_setSp (s : State) (v : Byte) : (s.setSp v).out = s.out := rfl
@[simp] theorem State.cfg_setSp (s : State) (v : Byte) : (s.setSp v).cfg = s.cfg := rfl
@[simp] theorem State.byteAt_setSp (s : State) (v : Byte) (x : Nat) : (s.setSp v).byteAt x = s.byteAt x := rfl

/-! ### `setPc` -/

@[simp] theorem State.mem_setPc (s : State) (p : PcWord) : (s.setPc p).mem = s.mem := rfl
@[simp] theorem State.regs_setPc (s : State) (p : PcWord) : (s.setPc p).regs = s.regs := rfl
@[simp] theorem State.pc_setPc (s : State) (p : PcWord) : (s.setPc p).pc = p := rfl
@[simp] theorem State.flags_setPc (s : State) (p : PcWord) : (s.setPc p).flags = s.flags := rfl
@[simp] theorem State.run_setPc (s : State) (p : PcWord) : (s.setPc p).run = s.run := rfl
@[simp] theorem State.fault_setPc (s : State) (p : PcWord) : (s.setPc p).fault = s.fault := rfl
@[simp] theorem State.ir_setPc (s : State) (p : PcWord) : (s.setPc p).ir = s.ir := rfl
@[simp] theorem State.out_setPc (s : State) (p : PcWord) : (s.setPc p).out = s.out := rfl
@[simp] theorem State.cfg_setPc (s : State) (p : PcWord) : (s.setPc p).cfg = s.cfg := rfl
@[simp] theorem State.reg_setPc (s : State) (p : PcWord) (j : RegIdx) : (s.setPc p).reg j = s.reg j := rfl
@[simp] theorem State.sp_setPc (s : State) (p : PcWord) : (s.setPc p).sp = s.sp := rfl
@[simp] theorem State.byteAt_setPc (s : State) (p : PcWord) (x : Nat) : (s.setPc p).byteAt x = s.byteAt x := rfl

/-! ### `setMem` -/

@[simp] theorem State.mem_setMem (s : State) (m : Memory) : (s.setMem m).mem = m := rfl
@[simp] theorem State.regs_setMem (s : State) (m : Memory) : (s.setMem m).regs = s.regs := rfl
@[simp] theorem State.pc_setMem (s : State) (m : Memory) : (s.setMem m).pc = s.pc := rfl
@[simp] theorem State.flags_setMem (s : State) (m : Memory) : (s.setMem m).flags = s.flags := rfl
@[simp] theorem State.run_setMem (s : State) (m : Memory) : (s.setMem m).run = s.run := rfl
@[simp] theorem State.fault_setMem (s : State) (m : Memory) : (s.setMem m).fault = s.fault := rfl
@[simp] theorem State.ir_setMem (s : State) (m : Memory) : (s.setMem m).ir = s.ir := rfl
@[simp] theorem State.out_setMem (s : State) (m : Memory) : (s.setMem m).out = s.out := rfl
@[simp] theorem State.cfg_setMem (s : State) (m : Memory) : (s.setMem m).cfg = s.cfg := rfl
@[simp] theorem State.reg_setMem (s : State) (m : Memory) (j : RegIdx) : (s.setMem m).reg j = s.reg j := rfl
@[simp] theorem State.sp_setMem (s : State) (m : Memory) : (s.setMem m).sp = s.sp := rfl

/-! ### `setFlags` -/

@[simp] theorem State.mem_setFlags (s : State) (f : Flags) : (s.setFlags f).mem = s.mem := rfl
@[simp] theorem State.regs_setFlags (s : State) (f : Flags) : (s.setFlags f).regs = s.regs := rfl
@[simp] theorem State.pc_setFlags (s : State) (f : Flags) : (s.setFlags f).pc = s.pc := rfl
@[simp] theorem State.flags_setFlags (s : State) (f : Flags) : (s.setFlags f).flags = f := rfl
@[simp] theorem State.run_setFlags (s : State) (f : Flags) : (s.setFlags f).run = s.run := rfl
@[simp] theorem State.fault_setFlags (s : State) (f : Flags) : (s.setFlags f).fault = s.fault := rfl
@[simp] theorem State.ir_setFlags (s : State) (f : Flags) : (s.setFlags f).ir = s.ir := rfl
@[simp] theorem State.out_setFlags (s : State) (f : Flags) : (s.setFlags f).out = s.out := rfl
@[simp] theorem State.cfg_setFlags (s : State) (f : Flags) : (s.setFlags f).cfg = s.cfg := rfl
@[simp] theorem State.reg_setFlags (s : State) (f : Flags) (j : RegIdx) : (s.setFlags f).reg j = s.reg j := rfl
@[simp] theorem State.sp_setFlags (s : State) (f : Flags) : (s.setFlags f).sp = s.sp := rfl
@[simp] theorem State.byteAt_setFlags (s : State) (f : Flags) (x : Nat) : (s.setFlags f).byteAt x = s.byteAt x := rfl

/-! ### `latchIr` -/

@[simp] theorem State.mem_latchIr (s : State) (b : Byte) : (s.latchIr b).mem = s.mem := rfl
@[simp] theorem State.regs_latchIr (s : State) (b : Byte) : (s.latchIr b).regs = s.regs := rfl
@[simp] theorem State.pc_latchIr (s : State) (b : Byte) : (s.latchIr b).pc = s.pc := rfl
@[simp] theorem State.flags_latchIr (s : State) (b : Byte) : (s.latchIr b).flags = s.flags := rfl
@[simp] theorem State.run_latchIr (s : State) (b : Byte) : (s.latchIr b).run = s.run := rfl
@[simp] theorem State.fault_latchIr (s : State) (b : Byte) : (s.latchIr b).fault = s.fault := rfl
@[simp] theorem State.ir_latchIr (s : State) (b : Byte) : (s.latchIr b).ir = b := rfl
@[simp] theorem State.out_latchIr (s : State) (b : Byte) : (s.latchIr b).out = s.out := rfl
@[simp] theorem State.cfg_latchIr (s : State) (b : Byte) : (s.latchIr b).cfg = s.cfg := rfl
@[simp] theorem State.reg_latchIr (s : State) (b : Byte) (j : RegIdx) : (s.latchIr b).reg j = s.reg j := rfl
@[simp] theorem State.sp_latchIr (s : State) (b : Byte) : (s.latchIr b).sp = s.sp := rfl
@[simp] theorem State.byteAt_latchIr (s : State) (b : Byte) (x : Nat) : (s.latchIr b).byteAt x = s.byteAt x := rfl

/-! ### `emit` -/

@[simp] theorem State.mem_emit (s : State) (v : Byte) : (s.emit v).mem = s.mem := rfl
@[simp] theorem State.regs_emit (s : State) (v : Byte) : (s.emit v).regs = s.regs := rfl
@[simp] theorem State.pc_emit (s : State) (v : Byte) : (s.emit v).pc = s.pc := rfl
@[simp] theorem State.flags_emit (s : State) (v : Byte) : (s.emit v).flags = s.flags := rfl
@[simp] theorem State.run_emit (s : State) (v : Byte) : (s.emit v).run = s.run := rfl
@[simp] theorem State.fault_emit (s : State) (v : Byte) : (s.emit v).fault = s.fault := rfl
@[simp] theorem State.ir_emit (s : State) (v : Byte) : (s.emit v).ir = s.ir := rfl
@[simp] theorem State.out_emit (s : State) (v : Byte) : (s.emit v).out = s.out ++ [v] := rfl
@[simp] theorem State.cfg_emit (s : State) (v : Byte) : (s.emit v).cfg = s.cfg := rfl
@[simp] theorem State.reg_emit (s : State) (v : Byte) (j : RegIdx) : (s.emit v).reg j = s.reg j := rfl
@[simp] theorem State.sp_emit (s : State) (v : Byte) : (s.emit v).sp = s.sp := rfl
@[simp] theorem State.byteAt_emit (s : State) (v : Byte) (x : Nat) : (s.emit v).byteAt x = s.byteAt x := rfl

/-! ### `halt` -/

@[simp] theorem State.mem_halt (s : State) : s.halt.mem = s.mem := rfl
@[simp] theorem State.regs_halt (s : State) : s.halt.regs = s.regs := rfl
@[simp] theorem State.pc_halt (s : State) : s.halt.pc = s.pc := rfl
@[simp] theorem State.flags_halt (s : State) : s.halt.flags = s.flags := rfl
@[simp] theorem State.run_halt (s : State) : s.halt.run = .halted := rfl
@[simp] theorem State.fault_halt (s : State) : s.halt.fault = s.fault := rfl
@[simp] theorem State.ir_halt (s : State) : s.halt.ir = s.ir := rfl
@[simp] theorem State.out_halt (s : State) : s.halt.out = s.out := rfl
@[simp] theorem State.cfg_halt (s : State) : s.halt.cfg = s.cfg := rfl
@[simp] theorem State.reg_halt (s : State) (j : RegIdx) : s.halt.reg j = s.reg j := rfl
@[simp] theorem State.sp_halt (s : State) : s.halt.sp = s.sp := rfl
@[simp] theorem State.byteAt_halt (s : State) (x : Nat) : s.halt.byteAt x = s.byteAt x := rfl

/-! ### `raise` -/

@[simp] theorem State.mem_raise (s : State) (c : FaultCause) : (s.raise c).mem = s.mem := rfl
@[simp] theorem State.regs_raise (s : State) (c : FaultCause) : (s.raise c).regs = s.regs := rfl
@[simp] theorem State.pc_raise (s : State) (c : FaultCause) : (s.raise c).pc = s.pc := rfl
@[simp] theorem State.flags_raise (s : State) (c : FaultCause) : (s.raise c).flags = s.flags := rfl
@[simp] theorem State.run_raise (s : State) (c : FaultCause) : (s.raise c).run = .faulted := rfl
@[simp] theorem State.fault_raise (s : State) (c : FaultCause) : (s.raise c).fault = some { cause := c, pc := s.pc } := rfl
@[simp] theorem State.ir_raise (s : State) (c : FaultCause) : (s.raise c).ir = s.ir := rfl
@[simp] theorem State.out_raise (s : State) (c : FaultCause) : (s.raise c).out = s.out := rfl
@[simp] theorem State.cfg_raise (s : State) (c : FaultCause) : (s.raise c).cfg = s.cfg := rfl
@[simp] theorem State.reg_raise (s : State) (c : FaultCause) (j : RegIdx) : (s.raise c).reg j = s.reg j := rfl
@[simp] theorem State.sp_raise (s : State) (c : FaultCause) : (s.raise c).sp = s.sp := rfl
@[simp] theorem State.byteAt_raise (s : State) (c : FaultCause) (x : Nat) : (s.raise c).byteAt x = s.byteAt x := rfl

/-! ### What was written reads back (R14, R16, R32) -/

theorem State.reg_setReg (s : State) (i j : RegIdx) (v : Byte) :
    (s.setReg i v).reg j = if i = j then v else s.reg j := by
  simp [State.reg, State.setReg, Vector.getElem_set, Fin.ext_iff]

@[simp] theorem State.reg_setReg_self (s : State) (i : RegIdx) (v : Byte) : (s.setReg i v).reg i = v := by
  simp [State.reg_setReg]

theorem State.reg_setReg_of_ne (s : State) {i j : RegIdx} (v : Byte) (h : j ≠ i) :
    (s.setReg i v).reg j = s.reg j := by
  simp [State.reg_setReg, h.symm]

@[simp] theorem State.sp_setSp (s : State) (v : Byte) : (s.setSp v).sp = v := State.reg_setReg_self s _ v

theorem State.reg_setSp (s : State) (v : Byte) (j : RegIdx) :
    (s.setSp v).reg j = if s.cfg.spIndex = j then v else s.reg j := State.reg_setReg s _ j v

theorem State.reg_setSp_of_ne (s : State) (v : Byte) {j : RegIdx} (h : j ≠ s.cfg.spIndex) :
    (s.setSp v).reg j = s.reg j := State.reg_setReg_of_ne s v h

theorem State.sp_setReg_of_ne (s : State) {i : RegIdx} (v : Byte) (h : i ≠ s.cfg.spIndex) :
    (s.setReg i v).sp = s.sp := State.reg_setReg_of_ne s v h.symm

/-- Every register after reset: `SP_RESET` in the stack pointer, `RESET_REG` elsewhere (R30). -/
theorem State.reg_resetWith (c : Config) (rs : Vector Byte 8) (f : Flags) (m : Memory) (j : RegIdx) :
    (State.resetWith c rs f m).reg j = if c.spIndex = j then spReset else rs[j] := by
  simp [State.reg, State.resetWith, Vector.getElem_set, Fin.ext_iff]

@[simp] theorem State.sp_resetWith (c : Config) (rs : Vector Byte 8) (f : Flags) (m : Memory) :
    (State.resetWith c rs f m).sp = spReset :=
  (State.reg_resetWith c rs f m c.spIndex).trans (if_pos rfl)

@[simp] theorem State.byteAt_setMem (s : State) (m : Memory) (x : Nat) : (s.setMem m).byteAt x = m.get x := rfl

/-- `zext_9` keeps the number (R7). -/
@[simp] theorem toNat_zext9 (v : Byte) : (zext9 v).toNat = v.toNat := by
  have := v.isLt
  simp [zext9, BitVec.toNat_setWidth]
  omega

end Sys2Proof.Machine
end

