-- ==== Sys2Proof/Laws/Ops.lean ====
section
/-!
SUPPORT. One lemma for each shared operation that says all it can do: the end of an instruction, the operand forms,
the stack's micro-operations.
-/

namespace Sys2Proof.Machine

/-! ### Sequencing and the end of an instruction -/

@[simp] theorem ok_bind {α β : Type} (a : α) (f : α → Except FaultCause β) : (Except.ok a >>= f) = f a := rfl

@[simp] theorem error_bind {α β : Type} (c : FaultCause) (f : α → Except FaultCause β) :
    (Except.error c >>= f) = .error c := rfl

@[simp] theorem ok_map {α β : Type} (a : α) (f : α → β) : f <$> (Except.ok a : Except FaultCause α) = .ok (f a) := rfl

@[simp] theorem error_map {α β : Type} (c : FaultCause) (f : α → β) :
    f <$> (Except.error c : Except FaultCause α) = .error c := rfl

@[simp] theorem pure_ok {α : Type} (a : α) : (pure a : Except FaultCause α) = .ok a := rfl

@[simp] theorem State.finish_ok (s t : State) : s.finish (.ok t) = .next t := rfl

@[simp] theorem State.finish_error (s : State) (c : FaultCause) : s.finish (.error c) = .next (s.raise c) := rfl

/-- An instruction ends in its whole effect or in a fault taken in the state it began in (R92, R93). -/
theorem State.finish_next {s t : State} {r : Except FaultCause State} (h : s.finish r = .next t) :
    r = .ok t ∨ ∃ c, r = .error c ∧ t = s.raise c := by
  cases r with
  | ok u =>
    cases h
    exact .inl rfl
  | error c =>
    cases h
    exact .inr ⟨c, rfl, rfl⟩

/-! ### Operand forms (R51, R17) -/

theorem regidx_of_eq {b : Byte} {i : RegIdx} (h : b.toNat = i.val) : regidx b = .ok i := by
  have hi := i.isLt
  simp [regidx, h, hi]

theorem regidx_of_gt {b : Byte} (h : 7 < b.toNat) : regidx b = .error (.outOfBoundsAccess .reg b.toNat) := by
  have hb : ¬ b.toNat < numRegs := by simp only [numRegs]; omega
  exact dif_neg hb

/-- A register-index operand names a register or raises with its own value. -/
theorem regidx_cases (b : Byte) :
    (∃ i, b.toNat = i.val ∧ regidx b = .ok i) ∨
      7 < b.toNat ∧ regidx b = .error (.outOfBoundsAccess .reg b.toNat) := by
  by_cases h : b.toNat < 8
  · exact .inl ⟨⟨b.toNat, h⟩, rfl, regidx_of_eq rfl⟩
  · exact .inr ⟨by omega, regidx_of_gt (by omega)⟩

/-- A destination is let through, or it is the protected stack pointer. -/
theorem dest_cases (c : Config) (i : RegIdx) :
    ((i = c.spIndex → c.spProtect = .none) ∧ dest c i = .ok i) ∨
      i = c.spIndex ∧ c.spProtect = .faultOnWrite ∧ dest c i = .error (.reservedRegisterWrite i) := by
  unfold dest
  cases c.spProtect <;> by_cases h : i = c.spIndex <;> simp [h]

theorem dest_of_writable {c : Config} {i : RegIdx} (h : i = c.spIndex → c.spProtect = .none) : dest c i = .ok i := by
  rcases dest_cases c i with h' | ⟨hi, hp, -⟩
  · exact h'.2
  · simp [h hi] at hp

theorem dest_of_protected {c : Config} (h : c.spProtect = .faultOnWrite) :
    dest c c.spIndex = .error (.reservedRegisterWrite c.spIndex) := by
  simp [dest, h]

/-! ### The stack (R79) -/

theorem State.decSp_of_zero {s : State} (h : s.sp = 0) : s.decSp = .error (.stackOverflow (-1)) := if_pos h

theorem State.decSp_of_ne {s : State} (h : s.sp ≠ 0) : s.decSp = .ok (s.setSp (s.sp - 1)) := if_neg h

theorem State.incSp_of_max {s : State} (h : s.sp = 255) : s.incSp = .error (.stackUnderflow 256) := if_pos h

theorem State.incSp_of_ne {s : State} (h : s.sp ≠ 255) : s.incSp = .ok (s.setSp (s.sp + 1)) := if_neg h

@[simp] theorem State.storeAtSp_eq (s : State) (v : Byte) :
    s.storeAtSp v = .ok (s.setMem (s.mem.set s.sp.toNat v)) := by
  simp [State.storeAtSp]

theorem State.push_of_zero {s : State} (h : s.sp = 0) (v : Byte) : s.push v = .error (.stackOverflow (-1)) := by
  simp [State.push, State.decSp_of_zero h]

theorem State.push_of_ne {s : State} (h : s.sp ≠ 0) (v : Byte) :
    s.push v = .ok ((s.setSp (s.sp - 1)).setMem (s.mem.set (s.sp - 1).toNat v)) := by
  simp [State.push, State.decSp_of_ne h]

theorem State.pop_of_max {s : State} (h : s.sp = 255) : s.pop = .error (.stackUnderflow 256) := by
  unfold State.pop
  rw [memRead_byte, ok_bind, State.incSp_of_max h, error_bind]

theorem State.pop_of_ne {s : State} (h : s.sp ≠ 255) :
    s.pop = .ok (s.mem.get s.sp.toNat, s.setSp (s.sp + 1)) := by
  unfold State.pop
  rw [memRead_byte, ok_bind, State.incSp_of_ne h, ok_bind, pure_ok]

/-- The decrement of a stack pointer that is not 0 is exact. -/
theorem toNat_sub_one {v : Byte} (h : v ≠ 0) : (v - 1).toNat + 1 = v.toNat := by
  have : v.toNat ≠ 0 := fun h' => h (BitVec.eq_of_toNat_eq h')
  have := v.isLt
  simp [BitVec.toNat_sub]
  omega

/-- The increment of a stack pointer that is not 255 is exact. -/
theorem toNat_add_one {v : Byte} (h : v ≠ 255) : (v + 1).toNat = v.toNat + 1 := by
  have : v.toNat ≠ 255 := fun h' => h (BitVec.eq_of_toNat_eq h')
  have := v.isLt
  simp [BitVec.toNat_add]
  omega

end Sys2Proof.Machine
end

