-- ==== Sys2Proof/Laws/Meanings.lean ====
section
/-!
SUPPORT. For each instruction, once and completely, what its meaning can answer: the closed form of its effect when it
completes, and an inversion lemma that lists every case of its next state, faults included, for proofs to cite instead
of unfolding a meaning.
-/

namespace Sys2Proof.Machine

variable {a b : Byte} {i j : RegIdx} {s t : State}

/-! ### HLT, LDI, PRN, MUL -/

theorem execHlt_eq : execHlt s = .next (s.halt.setPc (s.pc + 1)) := rfl

theorem execLdi_ok (h : a.toNat = i.val) (hw : i = s.cfg.spIndex → s.cfg.spProtect = .none) :
    execLdi a b s = .next ((s.setReg i b).setPc (s.pc + 3)) := by
  simp [execLdi, ldiEffect, regidx_of_eq h, dest_of_writable hw]

theorem execLdi_next (h : execLdi a b s = .next t) :
    7 < a.toNat ∧ t = s.raise (.outOfBoundsAccess .reg a.toNat) ∨
    ∃ i : RegIdx, a.toNat = i.val ∧
      (i = s.cfg.spIndex ∧ s.cfg.spProtect = .faultOnWrite ∧ t = s.raise (.reservedRegisterWrite i) ∨
       (i = s.cfg.spIndex → s.cfg.spProtect = .none) ∧ t = (s.setReg i b).setPc (s.pc + 3)) := by
  rcases regidx_cases a with ⟨i, hi, hr⟩ | ⟨hi, hr⟩
  · rcases dest_cases s.cfg i with ⟨hw, hd⟩ | ⟨he, hp, hd⟩
    · rw [execLdi_ok hi hw] at h
      exact .inr ⟨i, hi, .inr ⟨hw, by cases h; rfl⟩⟩
    · simp [execLdi, ldiEffect, hr, hd] at h
      exact .inr ⟨i, hi, .inl ⟨he, hp, h.symm⟩⟩
  · simp [execLdi, ldiEffect, hr] at h
    exact .inl ⟨hi, h.symm⟩

theorem execPrn_ok (h : a.toNat = i.val) : execPrn a s = .next ((s.emit (s.reg i)).setPc (s.pc + 2)) := by
  simp [execPrn, prnEffect, regidx_of_eq h]

theorem execPrn_next (h : execPrn a s = .next t) :
    7 < a.toNat ∧ t = s.raise (.outOfBoundsAccess .reg a.toNat) ∨
    ∃ i : RegIdx, a.toNat = i.val ∧ t = (s.emit (s.reg i)).setPc (s.pc + 2) := by
  rcases regidx_cases a with ⟨i, hi, -⟩ | ⟨hi, hr⟩
  · rw [execPrn_ok hi] at h
    exact .inr ⟨i, hi, by cases h; rfl⟩
  · simp [execPrn, prnEffect, hr] at h
    exact .inl ⟨hi, h.symm⟩

theorem execMul_ok (hi : a.toNat = i.val) (hj : b.toNat = j.val) (hw : i = s.cfg.spIndex → s.cfg.spProtect = .none) :
    execMul a b s = .next ((s.setReg i (mulMod256 (s.reg i) (s.reg j))).setPc (s.pc + 3)) := by
  simp [execMul, mulEffect, regidx_of_eq hi, regidx_of_eq hj, dest_of_writable hw]

theorem execMul_next (h : execMul a b s = .next t) :
    7 < a.toNat ∧ t = s.raise (.outOfBoundsAccess .reg a.toNat) ∨
    ∃ i : RegIdx, a.toNat = i.val ∧
      (7 < b.toNat ∧ t = s.raise (.outOfBoundsAccess .reg b.toNat) ∨
       ∃ j : RegIdx, b.toNat = j.val ∧
        (i = s.cfg.spIndex ∧ s.cfg.spProtect = .faultOnWrite ∧ t = s.raise (.reservedRegisterWrite i) ∨
         (i = s.cfg.spIndex → s.cfg.spProtect = .none) ∧
          t = (s.setReg i (mulMod256 (s.reg i) (s.reg j))).setPc (s.pc + 3))) := by
  rcases regidx_cases a with ⟨i, hi, hr⟩ | ⟨hi, hr⟩
  · refine .inr ⟨i, hi, ?_⟩
    rcases regidx_cases b with ⟨j, hj, hs⟩ | ⟨hj, hs⟩
    · refine .inr ⟨j, hj, ?_⟩
      rcases dest_cases s.cfg i with ⟨hw, hd⟩ | ⟨he, hp, hd⟩
      · rw [execMul_ok hi hj hw] at h
        exact .inr ⟨hw, by cases h; rfl⟩
      · simp [execMul, mulEffect, hr, hs, hd] at h
        exact .inl ⟨he, hp, h.symm⟩
    · simp [execMul, mulEffect, hr, hs] at h
      exact .inl ⟨hj, h.symm⟩
  · simp [execMul, mulEffect, hr] at h
    exact .inl ⟨hi, h.symm⟩

/-- MUL's result as a number (R75). -/
theorem toNat_mulMod256 (x y : Byte) : (mulMod256 x y).toNat = x.toNat * y.toNat % 256 := by
  simp [mulMod256]

/-! ### PUSH, POP -/

theorem execPush_ok (h : a.toNat = i.val) (hs : s.sp ≠ 0) :
    execPush a s = .next (((s.setSp (s.sp - 1)).setMem
      (s.mem.set (s.sp - 1).toNat ((s.setSp (s.sp - 1)).reg i))).setPc (s.pc + 2)) := by
  simp [execPush, pushEffect, regidx_of_eq h, State.decSp_of_ne hs]

theorem execPush_next (h : execPush a s = .next t) :
    7 < a.toNat ∧ t = s.raise (.outOfBoundsAccess .reg a.toNat) ∨
    ∃ i : RegIdx, a.toNat = i.val ∧
      (s.sp = 0 ∧ t = s.raise (.stackOverflow (-1)) ∨
       s.sp ≠ 0 ∧ t = ((s.setSp (s.sp - 1)).setMem
        (s.mem.set (s.sp - 1).toNat ((s.setSp (s.sp - 1)).reg i))).setPc (s.pc + 2)) := by
  rcases regidx_cases a with ⟨i, hi, hr⟩ | ⟨hi, hr⟩
  · refine .inr ⟨i, hi, ?_⟩
    by_cases hs : s.sp = 0
    · simp [execPush, pushEffect, hr, State.decSp_of_zero hs] at h
      exact .inl ⟨hs, h.symm⟩
    · rw [execPush_ok hi hs] at h
      exact .inr ⟨hs, by cases h; rfl⟩
  · simp [execPush, pushEffect, hr] at h
    exact .inl ⟨hi, h.symm⟩

theorem execPop_ok (h : a.toNat = i.val) (hi : i ≠ s.cfg.spIndex) (hs : s.sp ≠ 255) :
    execPop a s = .next (((s.setSp (s.sp + 1)).setReg i (s.mem.get s.sp.toNat)).setPc (s.pc + 2)) := by
  have hw : dest s.cfg i = .ok i := dest_of_writable fun h' => absurd h' hi
  simp [execPop, popEffect, regidx_of_eq h, hw, hi, State.popInto, State.pop_of_ne hs]

theorem execPop_sp_ok (h : a.toNat = s.cfg.spIndex.val) (hp : s.cfg.spProtect = .none) (hs : s.sp ≠ 255)
    (hv : s.mem.get s.sp.toNat ≠ 255) :
    execPop a s = .next ((s.setSp (s.mem.get s.sp.toNat + 1)).setPc (s.pc + 2)) := by
  have hw : dest s.cfg s.cfg.spIndex = .ok s.cfg.spIndex := dest_of_writable fun _ => hp
  have hn : ¬ (s.sp = 255 ∨ s.mem.get s.sp.toNat = 255) := not_or.2 ⟨hs, hv⟩
  simp only [execPop, popEffect, regidx_of_eq h, hw, ok_bind, if_true, State.popIntoSp, memRead_byte, if_neg hn,
    pure_ok, State.finish_ok]

theorem execPop_sp_error (h : a.toNat = s.cfg.spIndex.val) (hp : s.cfg.spProtect = .none)
    (hs : s.sp = 255 ∨ s.mem.get s.sp.toNat = 255) :
    execPop a s = .next (s.raise (.stackUnderflow 256)) := by
  have hw : dest s.cfg s.cfg.spIndex = .ok s.cfg.spIndex := dest_of_writable fun _ => hp
  simp only [execPop, popEffect, regidx_of_eq h, hw, ok_bind, if_true, State.popIntoSp, memRead_byte, if_pos hs,
    error_bind, State.finish_error]

theorem execPop_error (h : a.toNat = i.val) (hi : i ≠ s.cfg.spIndex) (hs : s.sp = 255) :
    execPop a s = .next (s.raise (.stackUnderflow 256)) := by
  have hw : dest s.cfg i = .ok i := dest_of_writable fun h' => absurd h' hi
  simp only [execPop, popEffect, regidx_of_eq h, hw, ok_bind, if_neg hi, State.popInto, State.pop_of_max hs,
    error_bind, State.finish_error]

theorem execPop_next (h : execPop a s = .next t) :
    7 < a.toNat ∧ t = s.raise (.outOfBoundsAccess .reg a.toNat) ∨
    ∃ i : RegIdx, a.toNat = i.val ∧
      (i = s.cfg.spIndex ∧ s.cfg.spProtect = .faultOnWrite ∧ t = s.raise (.reservedRegisterWrite i) ∨
       i = s.cfg.spIndex ∧ s.cfg.spProtect = .none ∧
        ((s.sp = 255 ∨ s.mem.get s.sp.toNat = 255) ∧ t = s.raise (.stackUnderflow 256) ∨
         s.sp ≠ 255 ∧ s.mem.get s.sp.toNat ≠ 255 ∧
          t = (s.setSp (s.mem.get s.sp.toNat + 1)).setPc (s.pc + 2)) ∨
       i ≠ s.cfg.spIndex ∧
        (s.sp = 255 ∧ t = s.raise (.stackUnderflow 256) ∨
         s.sp ≠ 255 ∧ t = ((s.setSp (s.sp + 1)).setReg i (s.mem.get s.sp.toNat)).setPc (s.pc + 2))) := by
  rcases regidx_cases a with ⟨i, hi, hr⟩ | ⟨hi, hr⟩
  · refine .inr ⟨i, hi, ?_⟩
    rcases dest_cases s.cfg i with ⟨hw, hd⟩ | ⟨he, hp, hd⟩
    · refine .inr ?_
      by_cases he : i = s.cfg.spIndex
      · refine .inl ⟨he, hw he, ?_⟩
        by_cases hs : s.sp = 255 ∨ s.mem.get s.sp.toNat = 255
        · rw [execPop_sp_error (he ▸ hi) (hw he) hs] at h
          exact .inl ⟨hs, by cases h; rfl⟩
        · have hn := not_or.1 hs
          rw [execPop_sp_ok (he ▸ hi) (hw he) hn.1 hn.2] at h
          exact .inr ⟨hn.1, hn.2, by cases h; rfl⟩
      · refine .inr ⟨he, ?_⟩
        by_cases hs : s.sp = 255
        · rw [execPop_error hi he hs] at h
          exact .inl ⟨hs, by cases h; rfl⟩
        · rw [execPop_ok hi he hs] at h
          exact .inr ⟨hs, by cases h; rfl⟩
    · simp [execPop, popEffect, hr, hd] at h
      exact .inl ⟨he, hp, h.symm⟩
  · simp [execPop, popEffect, hr] at h
    exact .inl ⟨hi, h.symm⟩

/-! ### CALL, RET, JMP -/

theorem execCall_ok (h : a.toNat = i.val) (hp : s.pc.toNat + 2 ≤ 255) (hs : s.sp ≠ 0) :
    execCall a s = .next (((s.setSp (s.sp - 1)).setMem
      (s.mem.set (s.sp - 1).toNat (BitVec.ofNat 8 (s.pc.toNat + 2)))).setPc (zext9 ((s.setSp (s.sp - 1)).reg i))) := by
  have hp : ¬ s.returnAddress > 255 := Nat.not_lt.2 hp
  simp only [execCall, callEffect, regidx_of_eq h, ok_bind, if_neg hp, State.push_of_ne hs, pure_ok, State.finish_ok,
    State.reg_setMem]
  rfl

theorem execCall_next (h : execCall a s = .next t) :
    7 < a.toNat ∧ t = s.raise (.outOfBoundsAccess .reg a.toNat) ∨
    ∃ i : RegIdx, a.toNat = i.val ∧
      (255 < s.pc.toNat + 2 ∧ t = s.raise (.outOfBoundsAccess .mem (s.pc.toNat + 2)) ∨
       s.pc.toNat + 2 ≤ 255 ∧
        (s.sp = 0 ∧ t = s.raise (.stackOverflow (-1)) ∨
         s.sp ≠ 0 ∧ t = ((s.setSp (s.sp - 1)).setMem
          (s.mem.set (s.sp - 1).toNat (BitVec.ofNat 8 (s.pc.toNat + 2)))).setPc
            (zext9 ((s.setSp (s.sp - 1)).reg i)))) := by
  rcases regidx_cases a with ⟨i, hi, hr⟩ | ⟨hi, hr⟩
  · refine .inr ⟨i, hi, ?_⟩
    by_cases hp : s.returnAddress > 255
    · simp only [execCall, callEffect, hr, ok_bind, if_pos hp, State.finish_error] at h
      exact .inl ⟨hp, by cases h; rfl⟩
    · refine .inr ⟨Nat.not_lt.1 hp, ?_⟩
      by_cases hs : s.sp = 0
      · simp only [execCall, callEffect, hr, ok_bind, if_neg hp, State.push_of_zero hs, error_bind,
          State.finish_error] at h
        exact .inl ⟨hs, by cases h; rfl⟩
      · rw [execCall_ok hi (Nat.not_lt.1 hp) hs] at h
        exact .inr ⟨hs, by cases h; rfl⟩
  · simp [execCall, callEffect, hr] at h
    exact .inl ⟨hi, h.symm⟩

theorem execRet_ok (hs : s.sp ≠ 255) :
    execRet s = .next ((s.setSp (s.sp + 1)).setPc (zext9 (s.mem.get s.sp.toNat))) := by
  simp only [execRet, retEffect, State.pop_of_ne hs, ok_bind, pure_ok, State.finish_ok]

theorem execRet_error (hs : s.sp = 255) : execRet s = .next (s.raise (.stackUnderflow 256)) := by
  simp only [execRet, retEffect, State.pop_of_max hs, error_bind, State.finish_error]

theorem execRet_next (h : execRet s = .next t) :
    s.sp = 255 ∧ t = s.raise (.stackUnderflow 256) ∨
    s.sp ≠ 255 ∧ t = (s.setSp (s.sp + 1)).setPc (zext9 (s.mem.get s.sp.toNat)) := by
  by_cases hs : s.sp = 255
  · rw [execRet_error hs] at h
    exact .inl ⟨hs, by cases h; rfl⟩
  · rw [execRet_ok hs] at h
    exact .inr ⟨hs, by cases h; rfl⟩

theorem execJmp_ok (h : a.toNat = i.val) : execJmp a s = .next (s.setPc (zext9 (s.reg i))) := by
  simp [execJmp, jmpEffect, regidx_of_eq h]

theorem execJmp_next (h : execJmp a s = .next t) :
    7 < a.toNat ∧ t = s.raise (.outOfBoundsAccess .reg a.toNat) ∨
    ∃ i : RegIdx, a.toNat = i.val ∧ t = s.setPc (zext9 (s.reg i)) := by
  rcases regidx_cases a with ⟨i, hi, -⟩ | ⟨hi, hr⟩
  · rw [execJmp_ok hi] at h
    exact .inr ⟨i, hi, by cases h; rfl⟩
  · simp [execJmp, jmpEffect, hr] at h
    exact .inl ⟨hi, h.symm⟩

/-! ### CMP, JEQ, JNE -/

theorem execCmp_ok (hi : a.toNat = i.val) (hj : b.toNat = j.val) :
    execCmp a b s = .next ((s.setFlags (compareFlags (s.reg i) (s.reg j))).setPc (s.pc + 3)) := by
  simp [execCmp, cmpEffect, regidx_of_eq hi, regidx_of_eq hj]

theorem execCmp_next (h : execCmp a b s = .next t) :
    7 < a.toNat ∧ t = s.raise (.outOfBoundsAccess .reg a.toNat) ∨
    ∃ i : RegIdx, a.toNat = i.val ∧
      (7 < b.toNat ∧ t = s.raise (.outOfBoundsAccess .reg b.toNat) ∨
       ∃ j : RegIdx, b.toNat = j.val ∧
        t = (s.setFlags (compareFlags (s.reg i) (s.reg j))).setPc (s.pc + 3)) := by
  rcases regidx_cases a with ⟨i, hi, hr⟩ | ⟨hi, hr⟩
  · refine .inr ⟨i, hi, ?_⟩
    rcases regidx_cases b with ⟨j, hj, -⟩ | ⟨hj, hs⟩
    · rw [execCmp_ok hi hj] at h
      exact .inr ⟨j, hj, by cases h; rfl⟩
    · simp [execCmp, cmpEffect, hr, hs] at h
      exact .inl ⟨hj, h.symm⟩
  · simp [execCmp, cmpEffect, hr] at h
    exact .inl ⟨hi, h.symm⟩

/-- What a conditional jump can do, whichever flag decides it. -/
theorem branch_next {taken : Bool} (h : s.finish (branchEffect taken a s) = .next t) :
    7 < a.toNat ∧ t = s.raise (.outOfBoundsAccess .reg a.toNat) ∨
    ∃ i : RegIdx, a.toNat = i.val ∧ t = s.setPc (if taken then zext9 (s.reg i) else s.pc + 2) := by
  rcases regidx_cases a with ⟨i, hi, hr⟩ | ⟨hi, hr⟩
  · simp only [branchEffect, hr, ok_bind, pure_ok, State.finish_ok] at h
    exact .inr ⟨i, hi, by cases h; rfl⟩
  · simp [branchEffect, hr] at h
    exact .inl ⟨hi, h.symm⟩

theorem execJeq_ok (h : a.toNat = i.val) :
    execJeq a s = .next (s.setPc (if s.flags.equal then zext9 (s.reg i) else s.pc + 2)) := by
  simp only [execJeq, branchEffect, regidx_of_eq h, ok_bind, pure_ok, State.finish_ok]

theorem execJne_ok (h : a.toNat = i.val) :
    execJne a s = .next (s.setPc (if !s.flags.equal then zext9 (s.reg i) else s.pc + 2)) := by
  simp only [execJne, branchEffect, regidx_of_eq h, ok_bind, pure_ok, State.finish_ok]

/-- No meaning stops: each of the twelve answers a next state in every state. -/
theorem exec_total (i : Instr) (s : State) : ∃ t, exec i s = .next t := by
  have hf (r : Except FaultCause State) : ∃ t, s.finish r = .next t := by cases r <;> exact ⟨_, rfl⟩
  cases i <;> first | exact hf _ | exact ⟨_, rfl⟩

end Sys2Proof.Machine
end

