-- ==== Sys2Proof/Laws/PerInstr.lean ====
section
/-!
SUPPORT. Statements about every instruction, one lemma per constructor. EncodeWidth: the encoder writes as many bytes as
the instruction is wide (R48), the opcode byte first (R50).
-/

namespace Sys2Proof.Laws.EncodeWidth

/-- R48, R50: the encoding is the operation's opcode byte and then the operand bytes, width bytes in all. -/
def Statement (i : Instr) : Prop :=
  ∀ m : OpcodeMap, (encode m i).length = i.width ∧ (encode m i).head? = some (m.byte i.op)

theorem hlt : Statement .hlt := fun _ => ⟨rfl, rfl⟩
theorem ldi (a b : Byte) : Statement (.ldi a b) := fun _ => ⟨rfl, rfl⟩
theorem prn (a : Byte) : Statement (.prn a) := fun _ => ⟨rfl, rfl⟩
theorem mul (a b : Byte) : Statement (.mul a b) := fun _ => ⟨rfl, rfl⟩
theorem push (a : Byte) : Statement (.push a) := fun _ => ⟨rfl, rfl⟩
theorem pop (a : Byte) : Statement (.pop a) := fun _ => ⟨rfl, rfl⟩
theorem call (a : Byte) : Statement (.call a) := fun _ => ⟨rfl, rfl⟩
theorem ret : Statement .ret := fun _ => ⟨rfl, rfl⟩
theorem jmp (a : Byte) : Statement (.jmp a) := fun _ => ⟨rfl, rfl⟩
theorem cmp (a b : Byte) : Statement (.cmp a b) := fun _ => ⟨rfl, rfl⟩
theorem jeq (a : Byte) : Statement (.jeq a) := fun _ => ⟨rfl, rfl⟩
theorem jne (a : Byte) : Statement (.jne a) := fun _ => ⟨rfl, rfl⟩

end Sys2Proof.Laws.EncodeWidth
end

