-- ==== Sys2Proof/Laws/Step.lean ====
section
/-!
SUPPORT. What decoding, fetching and a step can do, said once.
-/

namespace Sys2Proof

/-- The dispatch multiplexer selects only an operation whose byte it is. -/
theorem decodeOp_some {m : OpcodeMap} {b : Byte} {o : Op} (h : decodeOp m b = some o) : m.byte o = b := by
  simpa using List.find?_some h

theorem Op.mem_all (o : Op) : o ∈ Op.all := by cases o <;> decide

/-- It selects none only for a byte that is no operation's. -/
theorem decodeOp_none {m : OpcodeMap} {b : Byte} : decodeOp m b = none ↔ ∀ o, m.byte o ≠ b := by
  simp [decodeOp, List.find?_eq_none, Op.mem_all]

/-- The operands an operation takes are the instruction's operand bytes, and what is left is left. -/
theorem takeOperands_ok {o : Op} {bs rest : List Byte} {i : Instr} (h : takeOperands o bs = .ok i rest) :
    i.op = o ∧ bs = i.operandBytes ++ rest := by
  cases o <;> rcases bs with _ | ⟨a, _ | ⟨b, bs⟩⟩ <;>
    simp [takeOperands, withOneOperand, withTwoOperands] at h <;>
    (obtain ⟨rfl, rfl⟩ := h; exact ⟨rfl, rfl⟩)

/-- An operation rejects its operands only for the lowest one that is missing. -/
theorem takeOperands_rejected {o : Op} {bs : List Byte} {r : Reject} (h : takeOperands o bs = .rejected r) :
    r = .missingOperand (bs.length + 1) ∧ bs.length < o.operandCount := by
  cases o <;> rcases bs with _ | ⟨a, _ | ⟨b, bs⟩⟩ <;>
    simp [takeOperands, withOneOperand, withTwoOperands] at h <;>
    (subst h; exact ⟨rfl, by simp [Op.operandCount]⟩)

namespace Machine

/-- How many bytes the fetch finds: up to `n`, fewer at the top of memory (R33). -/
theorem length_bytesFrom (m : Memory) (n a : Nat) : (bytesFrom m n a).length = min n (memSize - a) := by
  induction n generalizing a with
  | zero => simp [bytesFrom]
  | succ n ih =>
    simp only [bytesFrom]
    split
    · rw [List.length_cons, ih]
      omega
    · rw [List.length_nil]
      omega

/-- The bytes the fetch finds are the cells' (R44, R62). -/
theorem getElem_bytesFrom (m : Memory) (n a k : Nat) (h : k < (bytesFrom m n a).length) :
    (bytesFrom m n a)[k] = m.get (a + k) := by
  induction n generalizing a k with
  | zero => simp [bytesFrom] at h
  | succ n ih =>
    by_cases ha : a < memSize
    · have he : bytesFrom m (n + 1) a = m.get a :: bytesFrom m n (a + 1) := if_pos ha
      simp only [he] at h ⊢
      cases k with
      | zero => rfl
      | succ k =>
        rw [List.getElem_cons_succ, ih]
        congr 1
        omega
    · have he : bytesFrom m (n + 1) a = [] := if_neg ha
      simp [he] at h

/-- In a running engine the step is one pass of the cycle (R61). -/
theorem step_of_running {s : State} (h : s.run = .running) : step s = s.cycle := by
  simp only [step, h]

/-- What a step of a running engine is: the fetch beyond memory, a rejected fetch, or the decoded instruction. -/
theorem step_next {s t : State} (h : step s = .next t) : s.run = .running ∧
    (256 ≤ s.pc.toNat ∧ t = s.raise (.outOfBoundsAccess .mem s.pc.toNat) ∨
     s.pc.toNat < 256 ∧
      ((∃ r, s.decodeAtPc = .rejected r ∧ t = s.fetched.raise (s.rejectCause r)) ∨
       ∃ i rest, s.decodeAtPc = .ok i rest ∧ exec i s.fetched = .next t)) := by
  unfold step at h
  cases hr : s.run <;> simp only [hr] at h
  · refine ⟨rfl, ?_⟩
    unfold State.cycle at h
    split at h
    · next hp =>
      refine .inr ⟨hp, ?_⟩
      cases hd : s.decodeAtPc with
      | ok i rest =>
        simp only [hd] at h
        exact .inr ⟨i, rest, rfl, h⟩
      | rejected r =>
        simp only [hd] at h
        exact .inl ⟨r, rfl, by cases h; rfl⟩
    · next hp => exact .inl ⟨Nat.not_lt.1 hp, by cases h; rfl⟩
  · cases h
  · cases h

end Machine

end Sys2Proof
end

