-- ==== Sys2Proof/Tests/Slice0.lean ====
section
/-!
SUPPORT. The model's own tests. Expected results are the spec's: the vectors of spec/95_test_vectors.md (their names in
the comments) and the worked examples of the instruction rules. Then, for every obligation with hypotheses, a concrete
state and operands that meet them, one for each clause.
-/

namespace Sys2Proof.Tests

open Sys2Proof.Machine

/-- The reset state with some bytes in the cells from `a` up and `pc` there. -/
def codeAt (a : Nat) (bs : List Byte) : State :=
  { State.reset with mem := loadBytes [] a bs, pc := BitVec.ofNat 9 a }

/-- A state with one register written. -/
def withReg (s : State) (i : RegIdx) (v : Byte) : State := { s with regs := s.regs.set i v }

/-- A state with one cell written. -/
def withCell (s : State) (a : Nat) (v : Byte) : State := { s with mem := s.mem.set a v }

/-- A state with other flags (E, L, G). -/
def withFlags (s : State) (e l g : Bool) : State := { s with flags := ⟨e, l, g⟩ }

/-- A state whose stack pointer register is not protected. -/
def unprotected (s : State) : State := { s with cfg := { s.cfg with spProtect := .none } }

/-- What a step's next state shows under `f`. -/
def after {α : Type} (s : State) (f : State → α) : Option α :=
  match step s with
  | .next t => some (f t)
  | .fault _ | .refused _ => none

/-- The fault a step records. -/
def faultOf (s : State) : Option FaultRecord := (after s State.errorReport).join

/-! ### Well-formedness refuses each ill-formed term -/

theorem test_wf_ok : (Instr.mul 7 0).wellFormed = true := by decide
theorem test_wf_immediate_free : (Instr.ldi 7 255).wellFormed = true := by decide
theorem test_ill_ldi : (Instr.ldi 8 0).wellFormed = false := by decide
theorem test_ill_prn : (Instr.prn 255).wellFormed = false := by decide
theorem test_ill_mul_first : (Instr.mul 8 0).wellFormed = false := by decide
theorem test_ill_mul_second : (Instr.mul 0 8).wellFormed = false := by decide
theorem test_ill_push : (Instr.push 8).wellFormed = false := by decide
theorem test_ill_pop : (Instr.pop 9).wellFormed = false := by decide
theorem test_ill_call : (Instr.call 16).wellFormed = false := by decide
theorem test_ill_jmp : (Instr.jmp 128).wellFormed = false := by decide
theorem test_ill_cmp : (Instr.cmp 0 8).wellFormed = false := by decide
theorem test_ill_jeq : (Instr.jeq 8).wellFormed = false := by decide
theorem test_ill_jne : (Instr.jne 8).wellFormed = false := by decide
theorem test_ill_opcodes_equal : OpcodeMap.distinct { OpcodeMap.std with push := 0x46 } = false := by decide
theorem test_ill_opcodes_count : OpcodeMap.countsMatch { OpcodeMap.std with hlt := 0x41 } = false := by decide
theorem test_ill_opcodes_mark : OpcodeMap.marksMatch { OpcodeMap.std with jmp := 0x44 } = false := by decide

/-! ### Every constructor's word, written out in binary from R52's table, decodes to it -/

theorem test_decode_hlt : decode .std [0b00000001] = .ok .hlt [] := by decide
theorem test_decode_ldi : decode .std [0b10000010, 0b00000011, 0b11001000] = .ok (.ldi 3 200) [] := by decide
theorem test_decode_prn : decode .std [0b01000111, 0b00000110] = .ok (.prn 6) [] := by decide
theorem test_decode_mul : decode .std [0b10100010, 0b00000010, 0b00000101] = .ok (.mul 2 5) [] := by decide
theorem test_decode_push : decode .std [0b01000101, 0b00000111] = .ok (.push 7) [] := by decide
theorem test_decode_pop : decode .std [0b01000110, 0b00000001] = .ok (.pop 1) [] := by decide
theorem test_decode_call : decode .std [0b01010000, 0b00000001] = .ok (.call 1) [] := by decide
theorem test_decode_ret : decode .std [0b00010001] = .ok .ret [] := by decide
theorem test_decode_jmp : decode .std [0b01010100, 0b00000010] = .ok (.jmp 2) [] := by decide
theorem test_decode_cmp : decode .std [0b10100111, 0b00000000, 0b00000010] = .ok (.cmp 0 2) [] := by decide
theorem test_decode_jeq : decode .std [0b01010101, 0b00000011] = .ok (.jeq 3) [] := by decide
theorem test_decode_jne : decode .std [0b01010110, 0b00000011] = .ok (.jne 3) [] := by decide

/-- The table's numbering: the second byte is bits 15..8, the third bits 23..16. -/
theorem test_table_word : decodeTableWord 24 0xC80382 = some (.ldi 3 200) := by decide
theorem test_table_word_short : decodeTableWord 8 0xFF82 = some (.ldi 0 0) := by decide
theorem test_placed_word_runs : after (State.reset.withFetchWord 24 0xC80382) (fun t => t.reg 3) = some 200 := by decide

theorem test_listing : listing (.ldi 0 8) = "LDI R0, 8" := by decide
theorem test_render : (State.outputLines { State.reset with out := [72, 0, 255] }) = ["72", "0", "255"] := by decide
theorem test_flags_byte : (Flags.mk false true false).pack = 0b100 ∧ (Flags.mk false false true).pack = 0b010 := by decide

/-! ### The engine cycle (vectors E, F) -/

/-- E2: HLT in cell 255 halts with `pc` = 256. -/
theorem test_E2_hlt_at_top : after (codeAt 255 [0x01]) (fun t => (t.run, t.pc.toNat)) = some (.halted, 256) := by decide

/-- E3, second step: the fetch at 256. -/
theorem test_E3_fetch_beyond : faultOf { State.reset with pc := 256 } =
    some ⟨.outOfBoundsAccess .mem 256, 256⟩ := by decide

/-- E5: the second operand would be cell 256. -/
theorem test_E5_second_operand : faultOf (codeAt 254 [0x82, 0x00]) =
    some ⟨.outOfBoundsAccess .mem 256, 254⟩ := by decide

/-- E6: a jump that would not be taken still fetches its operand. -/
theorem test_E6_untaken_operand : faultOf (codeAt 255 [0x55]) = some ⟨.outOfBoundsAccess .mem 256, 255⟩ := by decide

/-- F1: 0x00 is no instruction. -/
theorem test_F1_zero : faultOf State.reset = some ⟨.unknownOpcode 0x00, 0⟩ := by decide

/-- F3: an operand count of 3 is never acted on. -/
theorem test_F3_unknown_at_top : faultOf (codeAt 255 [0xFF]) = some ⟨.unknownOpcode 0xFF, 255⟩ := by decide

/-- No step is enabled in `Halted`. -/
theorem test_halted_stops : step { State.reset with run := .halted } = .fault .halted := by rfl

/-- D19: 257 bytes are not loaded. -/
theorem test_load_too_long : (State.reset.load (List.replicate 257 1)) = .error (.outOfBoundsAccess .mem 256) :=
  if_neg (by rw [List.length_replicate]; decide)

/-! ### The instructions -/

/-- R72's example. -/
theorem test_hlt_example : after (codeAt 11 [0x01]) (fun t => (t.run, t.pc)) = some (.halted, 12) := by decide

/-- B1. -/
theorem test_B1_ldi : after (codeAt 0 [0x82, 0x03, 0xC8]) (fun t => (t.reg 3, t.pc)) = some (200, 3) := by decide

/-- B3: with and without the protection. -/
theorem test_B3_ldi_sp : faultOf (codeAt 0 [0x82, 0x07, 0x10]) = some ⟨.reservedRegisterWrite 7, 0⟩ ∧
    after (unprotected (codeAt 0 [0x82, 0x07, 0x10])) (fun t => (t.sp, t.pc)) = some (0x10, 3) := by decide

/-- B6: reading the stack pointer register is legal. -/
theorem test_B6_prn_sp : after (codeAt 0 [0x47, 0x07]) (fun t => (t.out, t.pc)) = some ([244], 2) := by decide

/-- B7. -/
theorem test_B7_prn_index : faultOf (codeAt 0 [0x47, 0xFF]) = some ⟨.outOfBoundsAccess .reg 255, 0⟩ := by decide

/-- M1, the source's example: 200 * 200 mod 256 = 64. -/
theorem test_M1_mul : after (withReg (withReg (codeAt 0 [0xA2, 0x00, 0x01]) 0 200) 1 200)
    (fun t => (t.reg 0, t.reg 1, t.pc)) = some (64, 200, 3) := by decide

/-- M11: the index check comes before the protection check. -/
theorem test_M11_mul_order : faultOf (codeAt 0 [0xA2, 0x07, 0x09]) = some ⟨.outOfBoundsAccess .reg 9, 0⟩ := by decide

/-- K1. -/
theorem test_K1_push : after (withReg (codeAt 0 [0x45, 0x00]) 0 5) (fun t => (t.sp, t.byteAt 0xF3, t.pc)) =
    some (0xF3, 5, 2) := by decide

/-- K5: the value pushed is the decremented stack pointer. -/
theorem test_K5_push_sp : after (codeAt 0 [0x45, 0x07]) (fun t => (t.sp, t.byteAt 0xF3)) = some (0xF3, 0xF3) := by decide

/-- K2. -/
theorem test_K2_pop : after (withCell (withReg (codeAt 0 [0x46, 0x01]) 7 0xF3) 0xF3 5)
    (fun t => (t.reg 1, t.sp, t.byteAt 0xF3, t.pc)) = some (5, 0xF4, 5, 2) := by decide

/-- K6, without the protection: `SP` = popped byte + 1, or the underflow when that byte is 255. -/
theorem test_K6_pop_sp : after (unprotected (withCell (codeAt 0 [0x46, 0x07]) 0xF4 0x20)) (fun t => (t.sp, t.pc)) =
      some (0x21, 2) ∧
    faultOf (unprotected (withCell (codeAt 0 [0x46, 0x07]) 0xF4 0xFF)) = some ⟨.stackUnderflow 256, 0⟩ := by decide

/-- T1. -/
theorem test_T1_call : after (withReg (codeAt 3 [0x50, 0x01]) 1 8) (fun t => (t.sp, t.byteAt 0xF3, t.pc)) =
    some (0xF3, 5, 8) := by decide

/-- T6: the target is the stack pointer after the push; and T3: the return address does not fit. -/
theorem test_T6_T3_call : after (codeAt 0 [0x50, 0x07]) (fun t => (t.sp, t.byteAt 0xF3, t.pc)) = some (0xF3, 2, 243) ∧
    faultOf (codeAt 254 [0x50, 0x00]) = some ⟨.outOfBoundsAccess .mem 256, 254⟩ := by decide

/-- T2. -/
theorem test_T2_ret : after (withCell (withReg (codeAt 11 [0x11]) 7 0xF3) 0xF3 5) (fun t => (t.pc, t.sp)) =
    some (5, 0xF4) := by decide

/-- T7. -/
theorem test_T7_ret_underflow : faultOf (withReg (codeAt 0 [0x11]) 7 255) = some ⟨.stackUnderflow 256, 0⟩ := by decide

/-- T9. -/
theorem test_T9_jmp : after (withReg (codeAt 6 [0x54, 0x02]) 2 20) (fun t => t.pc) = some 20 := by decide

/-- C4: unsigned; C6: the old flags are lost. -/
theorem test_C4_C6_cmp :
    after (withReg (codeAt 0 [0xA7, 0x00, 0x01]) 1 255) (fun t => t.flags) = some ⟨false, true, false⟩ ∧
    after (withFlags (codeAt 0 [0xA7, 0x00, 0x01]) false false true) (fun t => t.flags) =
      some ⟨true, false, false⟩ := by decide

/-- C8 and C10: not taken, taken. -/
theorem test_C8_C10_jeq : after (withReg (codeAt 0 [0x55, 0x00]) 0 0x40) (fun t => t.pc) = some 2 ∧
    after (withFlags (withReg (codeAt 20 [0x55, 0x03]) 3 6) true false false) (fun t => t.pc) = some 6 := by decide

/-- C9 and C11: taken, not taken. -/
theorem test_C9_C11_jne : after (withReg (codeAt 0 [0x56, 0x00]) 0 0x40) (fun t => t.pc) = some 0x40 ∧
    after (withFlags (withReg (codeAt 20 [0x56, 0x03]) 3 6) true false false) (fun t => t.pc) = some 22 := by decide

/-- C12: the index is validated though the jump is not taken. -/
theorem test_C12_jeq_index : faultOf (codeAt 0 [0x55, 0x08]) = some ⟨.outOfBoundsAccess .reg 8, 0⟩ := by decide

/-! ### Witnesses: the hypotheses of each obligation are met, clause by clause -/

theorem witness_MemoryAccessContract : (255 : Nat) ≤ 255 := by decide
theorem witness_AddressAbove255Faults : 255 < (256 : Nat) := by decide
theorem witness_RegisterFileStoresExactly : (6 : RegIdx) ≠ State.reset.cfg.spIndex := by decide

theorem witness_OperandBytesAreWhole : (7 : Byte).toNat = (7 : RegIdx).val ∧ 7 < (8 : Byte).toNat ∧
    State.reset.writable 6 ∧ (unprotected State.reset).writable 7 := by
  unfold State.writable; decide

theorem witness_ResetGivesTheListedValues : (6 : RegIdx) ≠ Config.std.spIndex ∧ (6 : RegIdx) ≠ 7 ∧
    (6 : RegIdx) ≠ (codeAt 253 [0x82, 0x00, 0xEE]).cfg.spIndex := by decide

theorem witness_ResetMeetsInvariant : Config.std.opcodes.admissible = true ∧ Memory.wf [(0, 1), (255, 2)] ∧
    State.reset.cfg.opcodes.admissible = true := by decide

/-- A state that meets the invariant, with code, data and a program counter of its own. -/
theorem codeAt_inv : (codeAt 253 [0x82, 0x00, 0xEE]).Inv :=
  ⟨by decide, by decide, by decide, by decide, by decide⟩

/-- A faulted state that meets it. -/
theorem faulted_inv : (State.reset.faultedWith (.unknownOpcode 0)).Inv :=
  ⟨by decide, by decide, by decide, fun r h => by cases h; rfl, by decide⟩

theorem witness_LoaderPlacesTheProgram : (List.replicate 256 (1 : Byte)).length ≤ 256 ∧
    256 < (List.replicate 257 (1 : Byte)).length ∧ (codeAt 253 [0x82, 0x00, 0xEE]).Inv :=
  ⟨by rw [List.length_replicate], by rw [List.length_replicate]; decide, codeAt_inv⟩

theorem witness_DecodeOfEncodeIsIdentity : OpcodeMap.std.admissible = true ∧
    OpcodeMap.admissible { OpcodeMap.std with jeq := 0x40, jne := 0x41 } = true := by decide
theorem witness_EncodeOfDecodeIsIdentity : decode .std [0x47, 0x06, 0x01] = .ok (.prn 6) [0x01] := by decide
theorem witness_UnknownOpcodesAreAllOthers : OpcodeMap.std.admissible = true ∧ nopsField 0xC0 = 3 ∧ nopsField 0xFF = 3 := by
  decide
theorem witness_WidthFromOpcodeBits : OpcodeMap.std.admissible = true ∧
    decode .std [0x82, 0x00, 0x08, 0x01] = .ok (.ldi 0 8) [0x01] := by decide

theorem witness_StepRunsTheDecodedInstruction : (codeAt 253 [0x82, 0x00, 0xEE]).run = .running ∧
    (codeAt 253 [0x82, 0x00, 0xEE]).Fetches (.ldi 0 0xEE) := ⟨rfl, [], by decide⟩

theorem witness_EncodedBytesInMemoryRun :
    let s := codeAt 253 [0x82, 0x00, 0xEE]
    s.run = .running ∧ s.cfg.opcodes.admissible = true ∧ s.pc.toNat + (Instr.ldi 0 0xEE).width ≤ 256 ∧
      ∀ k (h : k < (encode s.cfg.opcodes (.ldi 0 0xEE)).length),
        s.byteAt (s.pc.toNat + k) = (encode s.cfg.opcodes (.ldi 0 0xEE))[k] := by decide

theorem witness_FetchLoadsInstructionRegister : State.reset.run = .running ∧
    255 < ({ State.reset with pc := 256 } : State).pc.toNat ∧ (codeAt 255 [0x01]).pc.toNat ≤ 255 ∧
    ∃ t, step (codeAt 255 [0x01]) = .next t := ⟨rfl, by decide, by decide, _, rfl⟩

theorem witness_UnknownOpcodeFaultsAtDispatch :
    let s := codeAt 255 [0xFF]
    s.run = .running ∧ s.pc.toNat ≤ 255 ∧ ∀ o, s.cfg.opcodes.byte o ≠ s.byteAt s.pc.toNat :=
  ⟨rfl, by decide, fun o => by cases o <;> decide⟩

theorem witness_OperandBeyondMemoryFaults :
    (let s := codeAt 255 [0x55]
     s.run = .running ∧ s.cfg.opcodes.admissible = true ∧ s.pc.toNat ≤ 255 ∧
       s.cfg.opcodes.byte .jeq = s.byteAt s.pc.toNat ∧ 255 < s.pc.toNat + Op.jeq.operandCount) ∧
    (let s := codeAt 254 [0x82, 0x00]
     s.run = .running ∧ s.cfg.opcodes.admissible = true ∧ s.pc.toNat ≤ 255 ∧
       s.cfg.opcodes.byte .ldi = s.byteAt s.pc.toNat ∧ 255 < s.pc.toNat + Op.ldi.operandCount) := by decide

theorem witness_AutoAdvanceFollowsOpcodeBits :
    (let s := codeAt 255 [0x01]
     s.cfg.opcodes.admissible = true ∧ s.run = .running ∧ s.Fetches .hlt ∧ (∃ t, step s = .next t ∧ t.run ≠ .faulted) ∧
       selfPcBit (s.byteAt s.pc.toNat) = false ∧ Instr.hlt.op ≠ .jeq ∧ Instr.hlt.op ≠ .jne) ∧
    (let s := codeAt 254 [0x55, 0x00]
     s.Fetches (.jeq 0) ∧ (∃ t, step s = .next t ∧ t.run ≠ .faulted) ∧ s.flags.equal = false) ∧
    (let s := withFlags (codeAt 254 [0x56, 0x00]) true false false
     s.Fetches (.jne 0) ∧ (∃ t, step s = .next t ∧ t.run ≠ .faulted) ∧ s.flags.equal = true) :=
  ⟨⟨by decide, rfl, ⟨[], by decide⟩, ⟨_, rfl, by decide⟩, by decide, by decide, by decide⟩,
    ⟨⟨[], by decide⟩, ⟨_, rfl, by decide⟩, rfl⟩, ⟨⟨[], by decide⟩, ⟨_, rfl, by decide⟩, rfl⟩⟩

theorem witness_HltAloneHalts : (codeAt 255 [0x01]).run = .running ∧ (codeAt 255 [0x01]).Fetches .hlt ∧
    (∃ t, step (codeAt 255 [0x01]) = .next t ∧ t.run = .halted) ∧
    ({ State.reset with run := .halted } : State).run = .halted :=
  ⟨rfl, ⟨[], by decide⟩, ⟨_, rfl, by decide⟩, rfl⟩

theorem witness_LdiLoadsImmediate : (6 : Byte).toNat = (6 : RegIdx).val ∧ State.reset.writable 6 ∧
    (7 : Byte).toNat = (7 : RegIdx).val ∧ (unprotected State.reset).writable 7 := by
  unfold State.writable; decide

theorem witness_PrnEmitsRegister : (7 : Byte).toNat = (7 : RegIdx).val := by decide

theorem witness_MulMultipliesMod256 : (0 : Byte).toNat = (0 : RegIdx).val ∧ (7 : Byte).toNat = (7 : RegIdx).val ∧
    State.reset.writable 0 := by unfold State.writable; decide

theorem witness_PushStoresBelowTop : (7 : Byte).toNat = (7 : RegIdx).val ∧ (withReg State.reset 7 1).sp ≠ 0 := by decide

theorem witness_PopLoadsTop : (6 : Byte).toNat = (6 : RegIdx).val ∧
    (6 : RegIdx) ≠ (withReg State.reset 7 254).cfg.spIndex ∧ (withReg State.reset 7 254).sp ≠ 255 := by decide

theorem witness_PopIntoUnprotectedStackPointer :
    (let s := withCell (unprotected State.reset) 0xF4 254
     (7 : Byte).toNat = s.cfg.spIndex.val ∧ s.cfg.spProtect = .none ∧ s.sp ≠ 255 ∧ s.byteAt s.sp.toNat ≠ 255) ∧
    (let s := withCell (unprotected State.reset) 0xF4 255
     (7 : Byte).toNat = s.cfg.spIndex.val ∧ s.cfg.spProtect = .none ∧ (s.sp = 255 ∨ s.byteAt s.sp.toNat = 255)) := by decide

theorem witness_CallPushesReturnAddress : (7 : Byte).toNat = (7 : RegIdx).val ∧
    ({ State.reset with pc := 253 } : State).pc.toNat + 2 ≤ 255 ∧ ({ State.reset with pc := 253 } : State).sp ≠ 0 := by decide

theorem witness_RetPopsProgramCounter : (withReg State.reset 7 254).sp ≠ 255 := by decide

theorem witness_JmpSetsProgramCounter : (7 : Byte).toNat = (7 : RegIdx).val ∧ 7 < (8 : Byte).toNat ∧
    (let s := codeAt 255 [0x54]
     s.run = .running ∧ s.cfg.opcodes.admissible = true ∧ s.pc.toNat = 255 ∧ s.byteAt 255 = s.cfg.opcodes.jmp) ∧
    ((withReg (codeAt 3 [0x54, 0x00]) 0 3).reg 0).toNat = (withReg (codeAt 3 [0x54, 0x00]) 0 3).pc.toNat := by decide

theorem witness_CmpRecomputesAllFlags : (0 : Byte).toNat = (0 : RegIdx).val ∧ (7 : Byte).toNat = (7 : RegIdx).val := by decide
theorem witness_ConditionalJumpsReadEqual : (7 : Byte).toNat = (7 : RegIdx).val := by decide

theorem witness_FirstBadRegisterOperandFaults :
    (Instr.jeq 8).registerOperands.find? (fun x => decide (7 < x.toNat)) = some 8 ∧
    (Instr.mul 7 9).registerOperands.find? (fun x => decide (7 < x.toNat)) = some 9 := by decide

theorem witness_ProtectedStackPointerWriteFaults : (7 : Byte).toNat = State.reset.cfg.spIndex.val ∧
    State.reset.cfg.spProtect = .faultOnWrite ∧ (7 : Byte).toNat ≤ 7 := by decide

theorem witness_StackExcursionsFault : (6 : Byte).toNat = (6 : RegIdx).val ∧ (withReg State.reset 7 0).sp = 0 ∧
    (withReg { State.reset with pc := 253 } 7 0).pc.toNat + 2 ≤ 255 ∧ (withReg State.reset 7 255).sp = 255 ∧
    (6 : RegIdx) ≠ (withReg State.reset 7 255).cfg.spIndex := by decide

theorem witness_CallReturnAddressBeyondMemoryFaults : (0 : Byte).toNat = (0 : RegIdx).val ∧
    255 < (codeAt 254 [0x50, 0x00]).pc.toNat + 2 := by decide

theorem witness_StepKeepsInvariant : (codeAt 253 [0x82, 0x00, 0xEE]).Inv ∧
    ∃ t, step (codeAt 253 [0x82, 0x00, 0xEE]) = .next t := ⟨codeAt_inv, _, rfl⟩

theorem witness_FaultEntryChangesNothingElse :
    (∃ t, step State.reset = .next t ∧ t.run = .faulted) ∧
    ∃ t, step { State.reset with pc := 256 } = .next t ∧ t.run = .faulted ∧
      ({ State.reset with pc := 256 } : State).pc.toNat = 256 :=
  ⟨⟨_, rfl, by decide⟩, _, rfl, by decide, by decide⟩

theorem witness_RecordedFaultIsTrue :
    State.reset.Inv ∧ ∃ t, step State.reset = .next t ∧ t.fault = some { cause := .unknownOpcode 0, pc := State.reset.pc } :=
  ⟨⟨by decide, by decide, by decide, by decide, by decide⟩, _, rfl, by decide⟩

/-- A fetched CMP that completes (its indices at both ends of the range), one that faults on each operand, and a fault
of another instruction. -/
theorem witness_FlagsWrittenOnlyByCompare :
    (∃ t, step (codeAt 0 [0xA7, 0x00, 0x07]) = .next t ∧ (codeAt 0 [0xA7, 0x00, 0x07]).Fetches (.cmp 0 7) ∧
      t.flags ≠ (codeAt 0 [0xA7, 0x00, 0x07]).flags ∧ (0 : Byte).toNat ≤ 7 ∧ (7 : Byte).toNat ≤ 7) ∧
    (∃ t, step (codeAt 0 [0xA7, 0x08, 0x07]) = .next t ∧ (codeAt 0 [0xA7, 0x08, 0x07]).Fetches (.cmp 8 7) ∧
      7 < (8 : Byte).toNat) ∧
    (∃ t, step (codeAt 0 [0xA7, 0x00, 0x08]) = .next t ∧ (codeAt 0 [0xA7, 0x00, 0x08]).Fetches (.cmp 0 8)) ∧
    ∃ t, step State.reset = .next t ∧ t.run = .faulted :=
  ⟨⟨_, rfl, ⟨[], by decide⟩, by decide, by decide, by decide⟩, ⟨_, rfl, ⟨[], by decide⟩, by decide⟩,
    ⟨_, rfl, ⟨[], by decide⟩⟩, _, rfl, by decide⟩

theorem witness_LessGreaterAreNeverRead :
    AgreeButLessGreater (codeAt 0 [0x55, 0x00]) (withFlags (codeAt 0 [0x55, 0x00]) false true true) ∧
    ∃ t, step (codeAt 0 [0x55, 0x00]) = .next t := ⟨⟨rfl, rfl⟩, _, rfl⟩

theorem witness_OutputLogOnlyGrows : ∃ t, step (codeAt 0 [0x47, 0x00]) = .next t ∧ t.out ≠ [] := ⟨_, rfl, by decide⟩
theorem witness_InstructionRegisterIsNeverRead : (codeAt 255 [0x01]).pc.toNat ≤ 255 := by decide

theorem witness_MemoryWrittenOnlyByPushAndCall : ∃ t, step (codeAt 0 [0x45, 0x07]) = .next t := ⟨_, rfl⟩

theorem witness_RegistersWrittenOnlyAsListed :
    (∃ t, step (codeAt 0 [0x82, 0x03, 0xC8]) = .next t ∧ t.reg 3 ≠ (codeAt 0 [0x82, 0x03, 0xC8]).reg 3) ∧
    ∃ t, step (codeAt 0 [0x45, 0x00]) = .next t ∧ t.reg 7 ≠ (codeAt 0 [0x45, 0x00]).reg 7 :=
  ⟨⟨_, rfl, by decide⟩, _, rfl, by decide⟩

theorem witness_StackPointerMovesByOne : (codeAt 0 [0x45, 0x00]).cfg.spProtect = .faultOnWrite ∧
    ∃ t, step (codeAt 0 [0x45, 0x00]) = .next t := ⟨rfl, _, rfl⟩

theorem witness_ParametersAreFixed : ∃ t, step (codeAt 0 [0x45, 0x00]) = .next t := ⟨_, rfl⟩

/-- K11: PUSH overwrites the next opcode with PRN's byte. -/
theorem witness_PushedByteIsFetchedNext :
    let s := withReg (withReg (codeAt 0 [0x45, 0x00, 0x01]) 7 3) 0 0x47
    (0 : Byte).toNat = (0 : RegIdx).val ∧ (0 : RegIdx) ≠ s.cfg.spIndex ∧ s.sp ≠ 0 ∧
      ∃ t u, exec (.push 0) s = .next t ∧ t.run = .running ∧ t.pc.toNat = (s.sp - 1).toNat ∧ step t = .next u :=
  ⟨by decide, by decide, by decide, _, _, rfl, by decide, by decide, rfl⟩

theorem witness_PushThenPopRestoresRegisters : (2 : Byte).toNat = (2 : RegIdx).val ∧
    (2 : RegIdx) ≠ State.reset.cfg.spIndex ∧ State.reset.sp ≠ 0 := by decide

theorem witness_CallThenRetReturns : (1 : Byte).toNat = (1 : RegIdx).val ∧
    ({ State.reset with pc := 253 } : State).pc.toNat + 2 ≤ 255 ∧ State.reset.sp ≠ 0 := by decide

theorem witness_CompareThenBranch : (0 : Byte).toNat = (0 : RegIdx).val ∧ (1 : Byte).toNat = (1 : RegIdx).val ∧
    (2 : Byte).toNat = (2 : RegIdx).val ∧ State.reset.reg 0 = State.reset.reg 1 ∧
    (withReg State.reset 0 9).reg 0 ≠ (withReg State.reset 0 9).reg 1 := by decide

/-- A halted state that meets the invariant. -/
theorem halted_inv : ({ State.reset with run := .halted } : State).Inv :=
  ⟨by decide, by decide, by decide, by decide, by decide⟩

theorem witness_ErrorReportIsTheRecord :
    ((State.reset.faultedWith (.unknownOpcode 0)).Inv ∧ (State.reset.faultedWith (.unknownOpcode 0)).run = .faulted) ∧
    (({ State.reset with run := .halted } : State).Inv ∧ ({ State.reset with run := .halted } : State).run = .halted) :=
  ⟨⟨faulted_inv, rfl⟩, halted_inv, rfl⟩

theorem witness_RunEndsOnlyHaltedOrFaulted : (codeAt 253 [0x82, 0x00, 0xEE]).Inv ∧
    ∃ t, Reaches (codeAt 253 [0x82, 0x00, 0xEE]) t ∧ t.pc = 256 := ⟨codeAt_inv, _, .tail .refl rfl, by decide⟩

/-- T11 and P8: a jump to itself. -/
theorem witness_JumpToItselfRunsForever :
    let s := withReg (codeAt 3 [0x54, 0x00]) 0 3
    s.run = .running ∧ s.Fetches (.jmp 0) ∧ (0 : Byte).toNat = (0 : RegIdx).val ∧ (s.reg 0).toNat = s.pc.toNat :=
  ⟨rfl, ⟨[0x00], by decide⟩, by decide, by decide⟩

/-- A reset of a stopped machine with a loaded program keeps neither the program nor the stop (R105). -/
theorem test_hostReset_keeps_nothing :
    (let s := { codeAt 253 [0x82, 0x00, 0xEE] with run := .halted, out := [7] }
     s.hostReset = State.reset) := by decide

end Sys2Proof.Tests
end

section
/-!
The register file (R14): every one of the eight registers stores what is written to it.
-/

namespace Sys2Proof.Machine

/-- Settles O3: the laws of `setReg`, read at the index written, at every other index and at the stack pointer's. -/
theorem registerFileStoresExactly : Obligations.RegisterFileStoresExactly := by
  intro s i v
  refine ⟨State.reg_setReg_self s i v, fun j hj => ?_, rfl, State.sp_setSp s v, State.sp_setReg_of_ne s v⟩
  exact State.reg_setReg_of_ne s v (List.ne_of_not_mem_cons hj)

end Sys2Proof.Machine
end

section
/-!
The output log (R26). Every effect but PRN's carries the log through: run with another log it ends the same, with that
other log in its result. That one fact says both that the effect does not read the log and that it does not write it.
-/

namespace Sys2Proof.Machine

variable {s t : State} {i : Instr}

/-! ### The state with another output log -/

/-- The output log replaced, for comparing two runs that differ in it. -/
def State.setOut (s : State) (o : List Byte) : State := { s with out := o }

@[simp] theorem State.setOut_out (s : State) : s.setOut s.out = s := rfl

@[simp] theorem State.pc_setOut (s : State) (o : List Byte) : (s.setOut o).pc = s.pc := rfl

@[simp] theorem State.run_setOut (s : State) (o : List Byte) : (s.setOut o).run = s.run := rfl

@[simp] theorem State.out_setOut (s : State) (o : List Byte) : (s.setOut o).out = o := rfl

@[simp] theorem withOut_next (o : List Byte) (t : State) : withOut o (.next t) = .next (t.setOut o) := rfl

/-- Of two replacements of the log the last one counts. -/
@[simp] theorem withOut_withOut (o o' : List Byte) (r : Result) : withOut o' (withOut o r) = withOut o' r := by
  cases r with
  | next t => rfl
  | fault r => rfl
  | refused r => rfl

/-! ### The stack carries the log through -/

theorem State.decSp_setOut (s : State) (o : List Byte) : (s.setOut o).decSp = (·.setOut o) <$> s.decSp := by
  by_cases hs : s.sp = 0
  · rw [State.decSp_of_zero hs, State.decSp_of_zero (s := s.setOut o) hs, error_map]
  · rw [State.decSp_of_ne hs, State.decSp_of_ne (s := s.setOut o) hs, ok_map]
    rfl

theorem State.push_setOut (s : State) (v : Byte) (o : List Byte) :
    (s.setOut o).push v = (·.setOut o) <$> s.push v := by
  simp only [State.push, State.decSp_setOut, State.storeAtSp_eq, bind_map_left, map_bind]
  rfl

theorem State.pop_setOut (s : State) (o : List Byte) :
    (s.setOut o).pop = (fun p => (p.1, p.2.setOut o)) <$> s.pop := by
  by_cases hs : s.sp = 255
  · rw [State.pop_of_max hs, State.pop_of_max (s := s.setOut o) hs, error_map]
  · rw [State.pop_of_ne hs, State.pop_of_ne (s := s.setOut o) hs, ok_map]
    rfl

theorem State.popIntoSp_setOut (s : State) (o : List Byte) :
    (s.setOut o).popIntoSp = (·.setOut o) <$> s.popIntoSp := by
  simp only [State.popIntoSp, map_bind, apply_ite]
  rfl

theorem State.popInto_setOut (s : State) (i : RegIdx) (o : List Byte) :
    (s.setOut o).popInto i = (·.setOut o) <$> s.popInto i := by
  simp only [State.popInto, State.pop_setOut, bind_map_left, map_bind]
  rfl

/-! ### Every effect but PRN's carries the log through -/

/-- The effect neither reads nor writes the output log. -/
def CarriesOut (e : State → Except FaultCause State) : Prop :=
  ∀ (s : State) (o : List Byte), e (s.setOut o) = (·.setOut o) <$> e s

theorem carriesOut_ldi (a b : Byte) : CarriesOut (ldiEffect a b) := by
  intro s o
  simp only [ldiEffect, map_bind]
  rfl

theorem carriesOut_mul (a b : Byte) : CarriesOut (mulEffect a b) := by
  intro s o
  simp only [mulEffect, map_bind]
  rfl

theorem carriesOut_push (a : Byte) : CarriesOut (pushEffect a) := by
  intro s o
  simp only [pushEffect, State.decSp_setOut, State.storeAtSp_eq, bind_map_left, map_bind]
  rfl

theorem carriesOut_pop (a : Byte) : CarriesOut (popEffect a) := by
  intro s o
  simp only [popEffect, State.popIntoSp_setOut, State.popInto_setOut, bind_map_left, map_bind, apply_ite]
  rfl

theorem carriesOut_call (a : Byte) : CarriesOut (callEffect a) := by
  intro s o
  simp only [callEffect, State.push_setOut, bind_map_left, map_bind, apply_ite]
  rfl

theorem carriesOut_ret : CarriesOut retEffect := by
  intro s o
  simp only [retEffect, State.pop_setOut, bind_map_left, map_bind]
  rfl

theorem carriesOut_jmp (a : Byte) : CarriesOut (jmpEffect a) := by
  intro s o
  simp only [jmpEffect, map_bind]
  rfl

theorem carriesOut_cmp (a b : Byte) : CarriesOut (cmpEffect a b) := by
  intro s o
  simp only [cmpEffect, map_bind]
  rfl

theorem carriesOut_branch (taken : Bool) (a : Byte) : CarriesOut (branchEffect taken a) := by
  intro s o
  simp only [branchEffect, map_bind]
  rfl

/-! ### Instructions and steps -/

/-- An instruction whose effect carries the log through carries it through its end too, in a fault as well (R93). -/
theorem CarriesOut.finish {e : State → Except FaultCause State} (he : CarriesOut e) (s : State) (o : List Byte) :
    (s.setOut o).finish (e (s.setOut o)) = withOut o (s.finish (e s)) := by
  rw [he s o]
  cases e s with
  | ok t => rfl
  | error c => rfl

theorem exec_setOut_of_ne_prn (hi : ∀ a, i ≠ .prn a) (s : State) (o : List Byte) :
    exec i (s.setOut o) = withOut o (exec i s) := by
  cases i with
  | prn a => exact absurd rfl (hi a)
  | hlt => rfl
  | ldi a b => exact (carriesOut_ldi a b).finish s o
  | mul a b => exact (carriesOut_mul a b).finish s o
  | push a => exact (carriesOut_push a).finish s o
  | pop a => exact (carriesOut_pop a).finish s o
  | call a => exact (carriesOut_call a).finish s o
  | ret => exact carriesOut_ret.finish s o
  | jmp a => exact (carriesOut_jmp a).finish s o
  | cmp a b => exact (carriesOut_cmp a b).finish s o
  | jeq a => exact (carriesOut_branch s.flags.equal a).finish s o
  | jne a => exact (carriesOut_branch (!s.flags.equal) a).finish s o

/-- PRN appends to the log it finds, so its two results agree once their logs are replaced. -/
theorem withOut_execPrn_setOut (a : Byte) (s : State) (o o' : List Byte) :
    withOut o' (execPrn a (s.setOut o)) = withOut o' (execPrn a s) := by
  rcases regidx_cases a with ⟨j, hj, -⟩ | ⟨-, hr⟩
  · rw [execPrn_ok hj, execPrn_ok hj]
    rfl
  · simp only [execPrn, prnEffect, hr, error_bind, State.finish_error]
    rfl

theorem withOut_exec_setOut (i : Instr) (s : State) (o o' : List Byte) :
    withOut o' (exec i (s.setOut o)) = withOut o' (exec i s) := by
  by_cases hi : ∃ a, i = .prn a
  · obtain ⟨a, rfl⟩ := hi
    exact withOut_execPrn_setOut a s o o'
  · rw [exec_setOut_of_ne_prn (not_exists.1 hi), withOut_withOut]

/-- The fetch and the decoder do not read the log, so the cycle differs at most as its instruction does. -/
theorem withOut_cycle_setOut (s : State) (o o' : List Byte) :
    withOut o' (s.setOut o).cycle = withOut o' s.cycle := by
  have hf : (s.setOut o).fetched = s.fetched.setOut o := rfl
  have hd : (s.setOut o).decodeAtPc = s.decodeAtPc := rfl
  simp only [State.cycle, State.pc_setOut, hd, hf]
  split
  · cases s.decodeAtPc with
    | ok i rest => exact withOut_exec_setOut i s.fetched o o'
    | rejected r => rfl
  · rfl

theorem withOut_step_setOut (s : State) (o o' : List Byte) :
    withOut o' (step (s.setOut o)) = withOut o' (step s) := by
  cases hr : s.run with
  | running => rw [step_of_running hr, step_of_running (s := s.setOut o) hr, withOut_cycle_setOut]
  | halted | faulted => simp only [step, State.run_setOut, hr]

/-- An instruction that carries the log through leaves it as it was: replacing the log by itself changes nothing. -/
theorem out_of_exec_of_ne_prn (hi : ∀ a, i ≠ .prn a) (h : exec i s = .next t) : t.out = s.out := by
  have hself := exec_setOut_of_ne_prn hi s s.out
  rw [State.setOut_out, h, withOut_next] at hself
  rw [Host.Outcome.next.inj hself, State.out_setOut]

/-- What an instruction does to the log: nothing, or PRN appends its register's byte (R74). -/
theorem out_of_exec (h : exec i s = .next t) :
    t.out = s.out ∨ ∃ a, i = .prn a ∧ ∃ j : RegIdx, a.toNat = j.val ∧ t.out = s.out ++ [s.reg j] := by
  by_cases hi : ∃ a, i = .prn a
  · obtain ⟨a, rfl⟩ := hi
    rcases execPrn_next h with ⟨-, rfl⟩ | ⟨j, hj, rfl⟩
    · exact .inl rfl
    · exact .inr ⟨a, rfl, j, hj, rfl⟩
  · exact .inl (out_of_exec_of_ne_prn (not_exists.1 hi) h)

/-- Only a fetched PRN appends to the log; a fetch that faults leaves it as it was (R92). -/
theorem out_of_step (h : step s = .next t) :
    t.out = s.out ∨ ∃ a i, s.Fetches (.prn a) ∧ a.toNat = i.val ∧ t.out = s.out ++ [s.reg i] := by
  obtain ⟨-, ⟨-, rfl⟩ | ⟨-, ⟨r, -, rfl⟩ | ⟨i, rest, hd, he⟩⟩⟩ := step_next h
  · exact .inl rfl
  · exact .inl rfl
  · exact (out_of_exec he).imp id fun ⟨a, hi, j, hj, ho⟩ => ⟨a, j, ⟨rest, hi ▸ hd⟩, hj, ho⟩

/-- Settles O42: empty at reset by definition, appended to by PRN alone, and carried through unread. -/
theorem outputLogOnlyGrows : Obligations.OutputLogOnlyGrows :=
  ⟨rfl, fun _ _ => out_of_step, withOut_step_setOut⟩

end Sys2Proof.Machine
end

section
/-!
The memory array (R32): an access to an address of the array is performed, and touches the one cell it names.
-/

namespace Sys2Proof.Machine

/-! ### An access inside the array is performed -/

theorem memRead_of_lt (m : Memory) {a : Nat} (ha : a < memSize) : memRead m a = .ok (m.get a) := if_pos ha

theorem memWrite_of_lt (m : Memory) {a : Nat} (v : Byte) (ha : a < memSize) : memWrite m a v = .ok (m.set a v) :=
  if_pos ha

/-- What is written is what a read of that cell then returns (R32). -/
theorem memRead_set_self (m : Memory) {a : Nat} (v : Byte) (ha : a < memSize) : memRead (m.set a v) a = .ok v := by
  rw [memRead_of_lt _ ha, Memory.get_set_self]

/-- Settles O1: both accesses are performed, the written memory is `m.set a v`, and the laws of `Memory.set` say what
it holds at `a` and elsewhere; the memory at reset is the empty listing. -/
theorem memoryAccessContract : Obligations.MemoryAccessContract := by
  intro m a v ha
  have hlt : a < memSize := Nat.lt_succ_of_le ha
  refine ⟨memRead_of_lt m hlt, ⟨m.set a v, memWrite_of_lt m v hlt, Memory.get_set_self m a v, ?_, fun b hb => ?_⟩,
    memRead_of_lt [] hlt⟩
  · exact memRead_set_self m v hlt
  · exact Memory.get_set_of_ne m v hb

end Sys2Proof.Machine
end

section
/-!
The width of an instruction (R63): what the decoder answers, read backwards, gives the opcode byte and the operand
bytes, and R53's second constraint ties their number to bits 7:6 of that byte.
-/

namespace Sys2Proof

variable {m : OpcodeMap} {b : Byte} {bs rest : List Byte} {i : Instr}

theorem nopsField_le (b : Byte) : nopsField b ≤ 3 := Nat.le_of_lt_succ (b.extractLsb' 6 2).isLt

/-- R53 item 2 for one operation. -/
theorem nopsField_byte (hm : m.admissible = true) (o : Op) : nopsField (m.byte o) = o.operandCount := by
  simp only [OpcodeMap.admissible, Bool.and_eq_true] at hm
  obtain ⟨⟨-, hcounts⟩, -⟩ := hm
  exact beq_iff_eq.1 (List.all_eq_true.1 hcounts o o.mem_all)

theorem Instr.length_operandBytes (i : Instr) : i.operandBytes.length = i.op.operandCount := by
  cases i <;> rfl

/-- Bytes that decode are the opcode byte of the instruction, its operand bytes and what is left. -/
theorem decode_cons_ok (h : decode m (b :: bs) = .ok i rest) : m.byte i.op = b ∧ bs = i.operandBytes ++ rest := by
  simp only [decode] at h
  cases ho : decodeOp m b with
  | none => simp [ho] at h
  | some o =>
    simp only [ho] at h
    obtain ⟨rfl, hbs⟩ := takeOperands_ok h
    exact ⟨decodeOp_some ho, hbs⟩

theorem width_eq_of_decode (hm : m.admissible = true) (h : decode m (b :: bs) = .ok i rest) :
    i.width = nopsField b + 1 := by
  obtain ⟨rfl, -⟩ := decode_cons_ok h
  rw [nopsField_byte hm, Instr.width]

/-- An instruction takes as many bytes as it is wide (R48). -/
theorem length_eq_of_decode (h : decode m (b :: bs) = .ok i rest) :
    (b :: bs).length = i.width + rest.length := by
  obtain ⟨-, rfl⟩ := decode_cons_ok h
  rw [List.length_cons, List.length_append, i.length_operandBytes, Instr.width, Nat.add_right_comm]

/-- Settles O13: two bits hold at most 3, and of what decodes the opcode byte gives the width. -/
theorem widthFromOpcodeBits : Obligations.WidthFromOpcodeBits :=
  fun _ b _ => ⟨nopsField_le b, fun _ _ hm h => ⟨width_eq_of_decode hm h, length_eq_of_decode h⟩⟩

end Sys2Proof
end

section
/-!
The fetch and the step (R61, R62): a running engine always has a next state, and the byte that the fetch latches in the
instruction register is still there after the step, because no instruction's meaning writes that register.
-/

namespace Sys2Proof.Machine

variable {s t : State} {i : Instr}

/-! ### A step is enabled exactly in a running engine (R61) -/

/-- The cycle never stops: a rejected fetch is a fault, which is a next state, and every meaning has one. -/
theorem State.cycle_total (s : State) : ∃ t, s.cycle = .next t := by
  unfold State.cycle
  split
  · cases s.decodeAtPc with
    | ok i rest => exact exec_total i s.fetched
    | rejected r => exact ⟨_, rfl⟩
  · exact ⟨_, rfl⟩

/-- Settles O16: a step with a next state began in a running engine, whose step is one pass of the cycle. -/
theorem stepEnabledExactlyWhenRunning : Obligations.StepEnabledExactlyWhenRunning := by
  refine fun s => ⟨fun ⟨t, h⟩ => (step_next h).1, fun hr => ?_⟩
  rw [step_of_running hr]
  exact s.cycle_total

/-! ### The fetch loads the instruction register, and nothing else does (R62) -/

theorem ir_fetched (s : State) : s.fetched.ir = s.byteAt s.pc.toNat := rfl

/-- No instruction writes the instruction register, whether it completes or faults. -/
theorem ir_of_exec (h : exec i s = .next t) : t.ir = s.ir := by
  cases i with
  | hlt => cases h; rfl
  | ldi a b => obtain ⟨-, rfl⟩ | ⟨j, -, ⟨-, -, rfl⟩ | ⟨-, rfl⟩⟩ := execLdi_next h <;> rfl
  | prn a => obtain ⟨-, rfl⟩ | ⟨j, -, rfl⟩ := execPrn_next h <;> rfl
  | mul a b =>
    obtain ⟨-, rfl⟩ | ⟨j, -, ⟨-, rfl⟩ | ⟨k, -, ⟨-, -, rfl⟩ | ⟨-, rfl⟩⟩⟩ := execMul_next h <;> rfl
  | push a => obtain ⟨-, rfl⟩ | ⟨j, -, ⟨-, rfl⟩ | ⟨-, rfl⟩⟩ := execPush_next h <;> rfl
  | pop a =>
    obtain ⟨-, rfl⟩ | ⟨j, -, ⟨-, -, rfl⟩ | ⟨-, -, ⟨-, rfl⟩ | ⟨-, -, rfl⟩⟩ | ⟨-, ⟨-, rfl⟩ | ⟨-, rfl⟩⟩⟩ :=
      execPop_next h <;> rfl
  | call a => obtain ⟨-, rfl⟩ | ⟨j, -, ⟨-, rfl⟩ | ⟨-, ⟨-, rfl⟩ | ⟨-, rfl⟩⟩⟩ := execCall_next h <;> rfl
  | ret => obtain ⟨-, rfl⟩ | ⟨-, rfl⟩ := execRet_next h <;> rfl
  | jmp a => obtain ⟨-, rfl⟩ | ⟨j, -, rfl⟩ := execJmp_next h <;> rfl
  | cmp a b => obtain ⟨-, rfl⟩ | ⟨j, -, ⟨-, rfl⟩ | ⟨k, -, rfl⟩⟩ := execCmp_next h <;> rfl
  | jeq a | jne a => obtain ⟨-, rfl⟩ | ⟨j, -, rfl⟩ := branch_next h <;> rfl

theorem step_of_pc_beyond_memory (hr : s.run = .running) (hp : 255 < s.pc.toNat) :
    step s = .next (s.faultedWith (.outOfBoundsAccess .mem s.pc.toNat)) :=
  (step_of_running hr).trans (if_neg (Nat.not_lt.2 hp))

theorem ir_of_step (hp : s.pc.toNat ≤ 255) (h : step s = .next t) : t.ir = s.byteAt s.pc.toNat := by
  obtain ⟨-, ⟨hbeyond, -⟩ | ⟨-, ⟨r, -, rfl⟩ | ⟨i, rest, -, he⟩⟩⟩ := step_next h
  · omega
  · rw [State.ir_raise, ir_fetched]
  · rw [ir_of_exec he, ir_fetched]

/-- Settles O17: the fetch beyond memory faults in the state as it was; any other fetch latches the byte at `pc`, and
neither a fault nor an instruction overwrites it. -/
theorem fetchLoadsInstructionRegister : Obligations.FetchLoadsInstructionRegister :=
  fun _ hr => ⟨step_of_pc_beyond_memory hr, fun hp _ => ir_of_step hp⟩

end Sys2Proof.Machine
end

section
/-!
HLT (R72). A running engine that fetches an instruction executes it; of the twelve, HLT alone writes `Halted`: every
other one leaves the run state as it was, or faults.
-/

namespace Sys2Proof.Machine

variable {s t : State} {i : Instr}

/-! ### A fetched instruction is executed -/

/-- Beyond memory there is no byte, and from no byte nothing is decoded (R62). -/
theorem State.Fetches.pc_lt (hf : s.Fetches i) : s.pc.toNat < memSize := by
  obtain ⟨rest, hd⟩ := hf
  by_contra hp
  have hnil : bytesFrom s.mem maxWidth s.pc.toNat = [] := if_neg hp
  rw [hnil] at hd
  cases hd

theorem step_of_fetches (hr : s.run = .running) (hf : s.Fetches i) : step s = exec i s.fetched := by
  have hp := hf.pc_lt
  obtain ⟨rest, hd⟩ := hf
  have hd : s.decodeAtPc = .ok i rest := hd
  rw [step_of_running hr]
  simp only [State.cycle, if_pos hp, hd]

/-! ### HLT halts -/

/-- HLT's step in full: `ir` latched by the fetch, then R72's two assignments. -/
theorem step_of_fetches_hlt (hr : s.run = .running) (hf : s.Fetches .hlt) :
    step s = .next (s.fetched.halt.setPc (s.pc + 1)) := step_of_fetches hr hf

/-- In nine bits the advance by 1 is exact, from cell 255 to 256 as well (R19). -/
theorem toNat_pc_add_one (hp : s.pc.toNat < memSize) : (s.pc + 1).toNat = s.pc.toNat + 1 := by
  have hp : s.pc.toNat < 256 := hp
  bv_omega

/-! ### No other instruction halts -/

/-- An instruction other than HLT leaves the run state as it was, or faults. -/
theorem run_of_exec_of_ne_hlt (hi : i ≠ .hlt) (h : exec i s = .next t) : t.run = s.run ∨ t.run = .faulted := by
  cases i with
  | hlt => exact absurd rfl hi
  | ldi a b =>
    obtain ⟨-, rfl⟩ | ⟨j, -, ⟨-, -, rfl⟩ | ⟨-, rfl⟩⟩ := execLdi_next h
    exacts [.inr rfl, .inr rfl, .inl rfl]
  | prn a =>
    obtain ⟨-, rfl⟩ | ⟨j, -, rfl⟩ := execPrn_next h
    exacts [.inr rfl, .inl rfl]
  | mul a b =>
    obtain ⟨-, rfl⟩ | ⟨j, -, ⟨-, rfl⟩ | ⟨k, -, ⟨-, -, rfl⟩ | ⟨-, rfl⟩⟩⟩ := execMul_next h
    exacts [.inr rfl, .inr rfl, .inr rfl, .inl rfl]
  | push a =>
    obtain ⟨-, rfl⟩ | ⟨j, -, ⟨-, rfl⟩ | ⟨-, rfl⟩⟩ := execPush_next h
    exacts [.inr rfl, .inr rfl, .inl rfl]
  | pop a =>
    obtain ⟨-, rfl⟩ | ⟨j, -, ⟨-, -, rfl⟩ | ⟨-, -, ⟨-, rfl⟩ | ⟨-, -, rfl⟩⟩ | ⟨-, ⟨-, rfl⟩ | ⟨-, rfl⟩⟩⟩ :=
      execPop_next h
    exacts [.inr rfl, .inr rfl, .inr rfl, .inl rfl, .inr rfl, .inl rfl]
  | call a =>
    obtain ⟨-, rfl⟩ | ⟨j, -, ⟨-, rfl⟩ | ⟨-, ⟨-, rfl⟩ | ⟨-, rfl⟩⟩⟩ := execCall_next h
    exacts [.inr rfl, .inr rfl, .inr rfl, .inl rfl]
  | ret =>
    obtain ⟨-, rfl⟩ | ⟨-, rfl⟩ := execRet_next h
    exacts [.inr rfl, .inl rfl]
  | jmp a =>
    obtain ⟨-, rfl⟩ | ⟨j, -, rfl⟩ := execJmp_next h
    exacts [.inr rfl, .inl rfl]
  | cmp a b =>
    obtain ⟨-, rfl⟩ | ⟨j, -, ⟨-, rfl⟩ | ⟨k, -, rfl⟩⟩ := execCmp_next h
    exacts [.inr rfl, .inr rfl, .inl rfl]
  | jeq a | jne a =>
    obtain ⟨-, rfl⟩ | ⟨j, -, rfl⟩ := branch_next h
    exacts [.inr rfl, .inl rfl]

theorem eq_hlt_of_exec_halted (hr : s.run = .running) (h : exec i s = .next t) (ht : t.run = .halted) : i = .hlt := by
  by_contra hi
  rcases run_of_exec_of_ne_hlt hi h with hkept | hfault
  · cases ht.symm.trans (hkept.trans hr)
  · cases ht.symm.trans hfault

/-- A step that ends in `Halted` is HLT's: a fetch that faults ends in `Faulted`. -/
theorem fetches_hlt_of_step_halted (h : step s = .next t) (ht : t.run = .halted) :
    s.run = .running ∧ s.Fetches .hlt := by
  obtain ⟨hr, ⟨-, rfl⟩ | ⟨-, ⟨r, -, rfl⟩ | ⟨i, rest, hd, he⟩⟩⟩ := step_next h
  · cases ht
  · cases ht
  · obtain rfl : i = .hlt := eq_hlt_of_exec_halted (s := s.fetched) hr he ht
    exact ⟨hr, rest, hd⟩

/-- Settles O21: HLT's step is its two assignments in the fetched state, no other step ends in `Halted`, and a step is
enabled in a running engine only. -/
theorem hltAloneHalts : Obligations.HltAloneHalts := by
  refine ⟨fun s => rfl, fun s hr hf => ?_, fun s t => fetches_hlt_of_step_halted, fun s t hr h => ?_⟩
  · exact ⟨_, step_of_fetches_hlt hr hf, rfl, toNat_pc_add_one hf.pc_lt, rfl, fun _ => rfl, rfl, fun _ => rfl, rfl⟩
  · cases hr.symm.trans (step_next h).1

end Sys2Proof.Machine
end

section
/-!
A missing operand (R66). With admissible opcode values (R53) the dispatch multiplexer selects the operation whose byte
it is given, and an operation whose last operand lies past cell 255 faults with the first address beyond memory.
-/

namespace Sys2Proof

variable {m : OpcodeMap}

/-- R53 item 1, read as a function's injectivity. -/
theorem OpcodeMap.byte_injective (hm : m.admissible = true) : Function.Injective m.byte := by
  simp only [OpcodeMap.admissible, Bool.and_eq_true] at hm
  obtain ⟨⟨hdistinct, -⟩, -⟩ := hm
  have hnodup : (Op.all.map m.byte).Nodup := of_decide_eq_true hdistinct
  exact fun o o' h => List.inj_on_of_nodup_map hnodup o.mem_all o'.mem_all h

theorem decodeOp_byte (hm : m.admissible = true) (o : Op) : decodeOp m (m.byte o) = some o := by
  cases hd : decodeOp m (m.byte o) with
  | none => exact absurd rfl (decodeOp_none.1 hd o)
  | some o' => rw [OpcodeMap.byte_injective hm (decodeOp_some hd)]

/-- What `takeOperands_ok` and `takeOperands_rejected` leave for too few bytes. -/
theorem takeOperands_of_lt {o : Op} {bs : List Byte} (h : bs.length < o.operandCount) :
    takeOperands o bs = .rejected (.missingOperand (bs.length + 1)) := by
  cases ht : takeOperands o bs with
  | ok i rest =>
    obtain ⟨rfl, rfl⟩ := takeOperands_ok ht
    rw [List.length_append, i.length_operandBytes] at h
    omega
  | rejected r => rw [(takeOperands_rejected ht).1]

theorem Op.operandCount_le (o : Op) : o.operandCount ≤ 2 := by cases o <;> decide

namespace Machine

variable {s : State} {o : Op}

theorem step_of_rejected {r : Reject} (hr : s.run = .running) (hp : s.pc.toNat < memSize)
    (hd : s.decodeAtPc = .rejected r) : step s = .next (s.fetched.raise (s.rejectCause r)) := by
  rw [step_of_running hr]
  simp only [State.cycle, if_pos hp, hd]

/-- An operation whose last operand would lie past cell 255 is rejected for the operand at address 256. -/
theorem decodeAtPc_of_operand_beyond_memory (hm : s.cfg.opcodes.admissible = true) (hp : s.pc.toNat < memSize)
    (ho : s.cfg.opcodes.byte o = s.byteAt s.pc.toNat) (hb : 255 < s.pc.toNat + o.operandCount) :
    s.decodeAtPc = .rejected (.missingOperand (256 - s.pc.toNat)) := by
  have hp' : s.pc.toNat < 256 := hp
  have hbytes : bytesFrom s.mem maxWidth s.pc.toNat = s.cfg.opcodes.byte o :: bytesFrom s.mem 2 (s.pc.toNat + 1) :=
    ho ▸ if_pos hp
  have hlen : (bytesFrom s.mem 2 (s.pc.toNat + 1)).length + 1 = 256 - s.pc.toNat := by
    have hcount := o.operandCount_le
    rw [length_bytesFrom]
    simp only [memSize]
    omega
  simp only [State.decodeAtPc, hbytes, decode, decodeOp_byte hm]
  rw [takeOperands_of_lt (by omega), hlen]

theorem step_of_operand_beyond_memory (hr : s.run = .running) (hm : s.cfg.opcodes.admissible = true)
    (hp : s.pc.toNat < memSize) (ho : s.cfg.opcodes.byte o = s.byteAt s.pc.toNat)
    (hb : 255 < s.pc.toNat + o.operandCount) :
    step s = .next ((s.latchIr (s.cfg.opcodes.byte o)).raise (.outOfBoundsAccess .mem 256)) := by
  have haddr : s.pc.toNat + (256 - s.pc.toNat) = 256 := Nat.add_sub_of_le (Nat.le_of_lt hp)
  have hfetched : s.fetched = s.latchIr (s.cfg.opcodes.byte o) := congrArg s.latchIr ho.symm
  rw [step_of_rejected hr hp (decodeAtPc_of_operand_beyond_memory hm hp ho hb), hfetched, State.rejectCause, haddr]

end Machine

end Sys2Proof
end

section
/-!
JMP (R82): the register's byte, as a number, becomes the program counter.
-/

namespace Sys2Proof.Machine

variable {s : State} {a : Byte} {i : RegIdx}

theorem zext9_eq_ofNat (v : Byte) : zext9 v = BitVec.ofNat 9 v.toNat := (BitVec.ofNat_toNat 9 v).symm

theorem execJmp_of_gt (h : 7 < a.toNat) : execJmp a s = .next (s.raise (.outOfBoundsAccess .reg a.toNat)) := by
  simp only [execJmp, jmpEffect, regidx_of_gt h, error_bind, State.finish_error]

/-- A jump to its own address rewrites `pc` with the value it holds. -/
theorem execJmp_self (h : a.toNat = i.val) (hself : (s.reg i).toNat = s.pc.toNat) : execJmp a s = .next s := by
  have hpc : zext9 (s.reg i) = s.pc := BitVec.eq_of_toNat_eq ((toNat_zext9 _).trans hself)
  rw [execJmp_ok h, hpc]
  rfl

/-- Settles O30: the closed form of JMP's meaning, its fault on a bad index, and the operand at address 256 of a JMP in
cell 255. -/
theorem jmpSetsProgramCounter : Obligations.JmpSetsProgramCounter := by
  refine ⟨fun s a i h => ?_, fun s a h => execJmp_of_gt h, fun s hr hm hp hb => ?_, fun s a i => execJmp_self⟩
  · rw [← zext9_eq_ofNat]
    exact execJmp_ok h
  · have hjmp : s.cfg.opcodes.byte .jmp = s.byteAt s.pc.toNat := by rw [hp]; exact hb.symm
    have hlt : s.pc.toNat < memSize := by rw [hp]; decide
    have hbeyond : 255 < s.pc.toNat + Op.jmp.operandCount := by rw [hp]; decide
    exact step_of_operand_beyond_memory hr hm hlt hjmp hbeyond

end Sys2Proof.Machine
end

section
/-!
The error report (R104): what the host is shown of the fault record in each run state. The invariant says that a record
stands in the state exactly when the run state is `Faulted`.
-/

namespace Sys2Proof.Machine

variable {s : State}

/-! ### What the host reads in each run state -/

theorem State.errorReport_of_faulted (hr : s.run = .faulted) : s.errorReport = s.fault := by
  simp only [State.errorReport, hr]

theorem State.errorReport_of_halted (hr : s.run = .halted) : s.errorReport = none := by
  simp only [State.errorReport, hr]

/-! ### What the invariant says of the record (R23) -/

/-- A faulted engine has a record, and it names the engine's own `pc`. -/
theorem State.Inv.fault_of_faulted (hI : s.Inv) (hr : s.run = .faulted) : ∃ r, s.fault = some r ∧ r.pc = s.pc := by
  obtain ⟨r, hrec⟩ := Option.isSome_iff_exists.1 (hI.recordWhenFaulted.1 hr)
  exact ⟨r, hrec, hI.recordNamesPc r hrec⟩

theorem State.Inv.fault_of_ne_faulted (hI : s.Inv) (hr : s.run ≠ .faulted) : s.fault = none :=
  Option.not_isSome_iff_eq_none.1 (mt hI.recordWhenFaulted.2 hr)

/-- Settles O52: the report of a faulted engine is its record, which the invariant provides; a halted engine has no
record and reports none. -/
theorem errorReportIsTheRecord : Obligations.ErrorReportIsTheRecord := by
  refine fun s hI => ⟨fun hr => ?_, fun hr => ?_⟩
  · obtain ⟨r, hrec, hpc⟩ := hI.fault_of_faulted hr
    exact ⟨r, (State.errorReport_of_faulted hr).trans hrec, hrec, hpc⟩
  · have hne : s.run ≠ .faulted := by simp [hr]
    exact ⟨State.errorReport_of_halted hr, hI.fault_of_ne_faulted hne⟩

end Sys2Proof.Machine
end

section
/-!
Decode and encode agree (sections 1 to 4 of 30_encoding.md): with admissible opcode values the decoder takes an encoded
instruction back apart, what it accepts is an encoding, and what it calls unknown is no opcode at all.
-/

namespace Sys2Proof

variable {m : OpcodeMap} {b : Byte} {bs rest : List Byte} {i : Instr}

/-! ### The round trips -/

theorem takeOperands_operandBytes (i : Instr) (rest : List Byte) :
    takeOperands i.op (i.operandBytes ++ rest) = .ok i rest := by
  cases i <;> rfl

theorem decode_encode (hm : m.admissible = true) (i : Instr) (rest : List Byte) :
    decode m (encode m i ++ rest) = .ok i rest := by
  simp only [encode, List.cons_append, decode, decodeOp_byte hm, takeOperands_operandBytes]

/-- Settles O9: the dispatch selects the instruction's own operation, which takes its operand bytes back. -/
theorem decodeOfEncodeIsIdentity : Obligations.DecodeOfEncodeIsIdentity :=
  fun _ i rest hm => decode_encode hm i rest

/-- Settles O10: bytes that decode are an opcode byte and operand bytes, read backwards by `decode_cons_ok`. -/
theorem encodeOfDecodeIsIdentity : Obligations.EncodeOfDecodeIsIdentity := by
  intro m bs i rest h
  cases bs with
  | nil => cases h
  | cons b bs =>
    obtain ⟨hop, hbs⟩ := decode_cons_ok h
    rw [encode, hop, hbs, List.cons_append]

/-! ### Unknown opcodes -/

/-- Operands are looked for only once the opcode is known, and a missing operand is another rejection (R65). -/
theorem decode_eq_unknownOpcode_iff :
    decode m (b :: bs) = .rejected (.unknownOpcode b) ↔ ∀ o, m.byte o ≠ b := by
  rw [← decodeOp_none]
  simp only [decode]
  cases decodeOp m b with
  | none => simp
  | some o =>
    refine iff_of_false (fun h => ?_) (by simp)
    cases (takeOperands_rejected h).1

/-- No operation has three operands, so no admissible opcode byte has both bits 7:6 set. -/
theorem byte_ne_of_nopsField_eq_three (hm : m.admissible = true) (hb : nopsField b = 3) (o : Op) : m.byte o ≠ b := by
  rintro rfl
  have hcount := o.operandCount_le
  rw [nopsField_byte hm] at hb
  omega

/-- The bytes that are opcodes, listed by number, are the values of the twelve operations. -/
theorem knownOpcodes_perm (hm : m.admissible = true) :
    ((List.range 256).filter fun n => !(decodeOp m (BitVec.ofNat 8 n)).isNone).Perm
      (Op.all.map fun o => (m.byte o).toNat) := by
  have hinj : Function.Injective fun o => (m.byte o).toNat :=
    fun o o' h => OpcodeMap.byte_injective hm (BitVec.eq_of_toNat_eq h)
  have hall : Op.all.Nodup := by decide
  refine (List.perm_ext_iff_of_nodup (List.nodup_range.filter _) (hall.map hinj)).2 fun n => ?_
  have hknown : (decodeOp m (BitVec.ofNat 8 n)).isNone = false ↔ ∃ o, m.byte o = BitVec.ofNat 8 n := by
    rw [← Bool.not_eq_true, Option.isNone_iff_eq_none, decodeOp_none]
    push Not
    rfl
  simp only [List.mem_filter, List.mem_range, Bool.not_eq_true', hknown, List.mem_map, Op.mem_all, true_and]
  constructor
  · rintro ⟨hn, o, ho⟩
    exact ⟨o, by rw [ho, BitVec.toNat_ofNat, Nat.mod_eq_of_lt hn]⟩
  · rintro ⟨o, rfl⟩
    exact ⟨(m.byte o).isLt, o, by simp⟩

/-- Of the 256 bytes, all but the twelve opcodes are unknown, whatever the twelve are. -/
theorem length_filter_unknownOpcode (hm : m.admissible = true) :
    ((List.range 256).filter fun n => (decodeOp m (BitVec.ofNat 8 n)).isNone).length = 244 := by
  have hsplit := (List.range 256).length_eq_length_filter_add fun n => (decodeOp m (BitVec.ofNat 8 n)).isNone
  rw [(knownOpcodes_perm hm).length_eq, List.length_range, List.length_map] at hsplit
  exact Nat.add_right_cancel (m := Op.all.length) hsplit.symm

/-! ### The values of the table (R52) -/

theorem OpcodeMap.std_admissible : OpcodeMap.std.admissible = true := by decide

/-- Settles O12: the decoder's own case on the dispatch, R53's operand counts, and the count of the bytes that are no
opcode, at the table's values. -/
theorem unknownOpcodesAreAllOthers : Obligations.UnknownOpcodesAreAllOthers :=
  ⟨fun _ _ _ => decode_eq_unknownOpcode_iff,
    fun _ _ _ hm hb => decode_eq_unknownOpcode_iff.2 (byte_ne_of_nopsField_eq_three hm hb),
    length_filter_unknownOpcode OpcodeMap.std_admissible⟩

/-- Settles O8: words of the table, decoded. -/
theorem tableWordsDecode : Obligations.TableWordsDecode := by
  unfold Obligations.TableWordsDecode
  decide

/-- Settles O11: the table's values are admissible, which gives the operand counts operation by operation; the marks of
bit 4, JEQ's and JNE's among them, are read off the values. -/
theorem opcodeValuesMeetConstraints : Obligations.OpcodeValuesMeetConstraints := by
  have hcount := nopsField_byte OpcodeMap.std_admissible
  refine ⟨by decide, fun o ho => ?_, fun o ho => ?_, fun o ho => ?_, fun o => ?_, OpcodeMap.std_admissible⟩
  · rw [hcount]
    fin_cases ho <;> rfl
  · rw [hcount]
    fin_cases ho <;> rfl
  · rw [hcount]
    fin_cases ho <;> rfl
  · cases o <;> decide

end Sys2Proof
end

section
/-!
What an instruction does, as two relations: `Completes s i t`, one constructor for each way to complete, and
`Raises s i c`, one for each fault with the condition under which it is the first to apply (R94). `exec` answers exactly
what they say (`Completes.exec`, `Raises.exec`, `exec_next`), so a rule of the whole machine is a case split over them.
-/

namespace Sys2Proof.Machine

variable {s t : State} {i : Instr} {a b : Byte} {c : FaultCause}

/-! ### The relations -/

/-- The operand byte names no register (R51). -/
def badOperand (x : Byte) : Bool := decide (7 < x.toNat)

/-- The instruction `i` completes in `s` and leaves `t`. -/
inductive Completes (s : State) : Instr → State → Prop where
  | hlt : Completes s .hlt (s.halt.setPc (s.pc + 1))
  | ldi {a b : Byte} {k : RegIdx} (ha : a.toNat = k.val) (hw : s.writable k) :
      Completes s (.ldi a b) ((s.setReg k b).setPc (s.pc + 3))
  | prn {a : Byte} {k : RegIdx} (ha : a.toNat = k.val) : Completes s (.prn a) ((s.emit (s.reg k)).setPc (s.pc + 2))
  | mul {a b : Byte} {k l : RegIdx} (ha : a.toNat = k.val) (hb : b.toNat = l.val) (hw : s.writable k) :
      Completes s (.mul a b) ((s.setReg k (mulMod256 (s.reg k) (s.reg l))).setPc (s.pc + 3))
  | push {a : Byte} {k : RegIdx} (ha : a.toNat = k.val) (hs : s.sp ≠ 0) :
      Completes s (.push a) (((s.setSp (s.sp - 1)).setMem
        (s.mem.set (s.sp - 1).toNat ((s.setSp (s.sp - 1)).reg k))).setPc (s.pc + 2))
  | pop {a : Byte} {k : RegIdx} (ha : a.toNat = k.val) (hk : k ≠ s.cfg.spIndex) (hs : s.sp ≠ 255) :
      Completes s (.pop a) (((s.setSp (s.sp + 1)).setReg k (s.mem.get s.sp.toNat)).setPc (s.pc + 2))
  | popSp {a : Byte} (ha : a.toNat = s.cfg.spIndex.val) (hp : s.cfg.spProtect = .none) (hs : s.sp ≠ 255)
      (hv : s.mem.get s.sp.toNat ≠ 255) :
      Completes s (.pop a) ((s.setSp (s.mem.get s.sp.toNat + 1)).setPc (s.pc + 2))
  | call {a : Byte} {k : RegIdx} (ha : a.toNat = k.val) (hp : s.pc.toNat + 2 ≤ 255) (hs : s.sp ≠ 0) :
      Completes s (.call a) (((s.setSp (s.sp - 1)).setMem
        (s.mem.set (s.sp - 1).toNat (BitVec.ofNat 8 (s.pc.toNat + 2)))).setPc (zext9 ((s.setSp (s.sp - 1)).reg k)))
  | ret (hs : s.sp ≠ 255) : Completes s .ret ((s.setSp (s.sp + 1)).setPc (zext9 (s.mem.get s.sp.toNat)))
  | jmp {a : Byte} {k : RegIdx} (ha : a.toNat = k.val) : Completes s (.jmp a) (s.setPc (zext9 (s.reg k)))
  | cmp {a b : Byte} {k l : RegIdx} (ha : a.toNat = k.val) (hb : b.toNat = l.val) :
      Completes s (.cmp a b) ((s.setFlags (compareFlags (s.reg k) (s.reg l))).setPc (s.pc + 3))
  | jeq {a : Byte} {k : RegIdx} (ha : a.toNat = k.val) :
      Completes s (.jeq a) (s.setPc (if s.flags.equal then zext9 (s.reg k) else s.pc + 2))
  | jne {a : Byte} {k : RegIdx} (ha : a.toNat = k.val) :
      Completes s (.jne a) (s.setPc (if !s.flags.equal then zext9 (s.reg k) else s.pc + 2))

/-- The instruction `i` raises the fault `c` in `s`. -/
inductive Raises (s : State) : Instr → FaultCause → Prop where
  | badOperand {i : Instr} {b : Byte} (h : i.registerOperands.find? badOperand = some b) :
      Raises s i (.outOfBoundsAccess .reg b.toNat)
  | ldiProtected {a b : Byte} (ha : a.toNat = s.cfg.spIndex.val) (hp : s.cfg.spProtect = .faultOnWrite) :
      Raises s (.ldi a b) (.reservedRegisterWrite s.cfg.spIndex)
  | mulProtected {a b : Byte} (ha : a.toNat = s.cfg.spIndex.val) (hb : b.toNat ≤ 7)
      (hp : s.cfg.spProtect = .faultOnWrite) : Raises s (.mul a b) (.reservedRegisterWrite s.cfg.spIndex)
  | popProtected {a : Byte} (ha : a.toNat = s.cfg.spIndex.val) (hp : s.cfg.spProtect = .faultOnWrite) :
      Raises s (.pop a) (.reservedRegisterWrite s.cfg.spIndex)
  | pushOverflow {a : Byte} (ha : a.toNat ≤ 7) (hs : s.sp = 0) : Raises s (.push a) (.stackOverflow (-1))
  | callAddress {a : Byte} (ha : a.toNat ≤ 7) (hp : 255 < s.pc.toNat + 2) :
      Raises s (.call a) (.outOfBoundsAccess .mem (s.pc.toNat + 2))
  | callOverflow {a : Byte} (ha : a.toNat ≤ 7) (hp : s.pc.toNat + 2 ≤ 255) (hs : s.sp = 0) :
      Raises s (.call a) (.stackOverflow (-1))
  | popUnderflow {a : Byte} {k : RegIdx} (ha : a.toNat = k.val) (hk : k ≠ s.cfg.spIndex) (hs : s.sp = 255) :
      Raises s (.pop a) (.stackUnderflow 256)
  | popSpUnderflow {a : Byte} (ha : a.toNat = s.cfg.spIndex.val) (hp : s.cfg.spProtect = .none)
      (hs : s.sp = 255 ∨ s.mem.get s.sp.toNat = 255) : Raises s (.pop a) (.stackUnderflow 256)
  | retUnderflow (hs : s.sp = 255) : Raises s .ret (.stackUnderflow 256)

/-! ### `exec` does what they say -/

theorem Completes.exec (h : Completes s i t) : exec i s = .next t := by
  cases h with
  | hlt => rfl
  | ldi ha hw => exact execLdi_ok ha hw
  | prn ha => exact execPrn_ok ha
  | mul ha hb hw => exact execMul_ok ha hb hw
  | push ha hs => exact execPush_ok ha hs
  | pop ha hk hs => exact execPop_ok ha hk hs
  | popSp ha hp hs hv => exact execPop_sp_ok ha hp hs hv
  | call ha hp hs => exact execCall_ok ha hp hs
  | ret hs => exact execRet_ok hs
  | jmp ha => exact execJmp_ok ha
  | cmp ha hb => exact execCmp_ok ha hb
  | jeq ha => exact execJeq_ok ha
  | jne ha => exact execJne_ok ha

theorem badOperand_iff : badOperand b = true ↔ 7 < b.toNat := decide_eq_true_iff

theorem toNat_le_of_index {k : RegIdx} (h : a.toNat = k.val) : a.toNat ≤ 7 := h ▸ Nat.le_of_lt_succ k.isLt

theorem find?_badOperand_singleton : [a].find? badOperand = some b ↔ 7 < a.toNat ∧ a = b := by
  simp [List.find?_singleton, badOperand_iff]

/-- Of two operands the first bad one is the first, or the second after a good first. -/
theorem find?_badOperand_pair {x : Byte} :
    [a, b].find? badOperand = some x ↔ 7 < a.toNat ∧ a = x ∨ a.toNat ≤ 7 ∧ 7 < b.toNat ∧ b = x := by
  by_cases ha : 7 < a.toNat
  · simp [List.find?_cons_of_pos (badOperand_iff.2 ha), ha]
  · have hgood : ¬ badOperand a = true := mt badOperand_iff.1 ha
    rw [List.find?_cons_of_neg hgood, find?_badOperand_singleton]
    simp [ha, Nat.not_lt.1 ha]

theorem regidx_of_le (h : a.toNat ≤ 7) : ∃ k : RegIdx, regidx a = .ok k :=
  ⟨⟨a.toNat, Nat.lt_succ_of_le h⟩, regidx_of_eq rfl⟩

/-- An instruction that validates a bad operand first ends there (R51). -/
theorem finish_regidx_of_gt (h : 7 < a.toNat) (f : RegIdx → Except FaultCause State) :
    s.finish (regidx a >>= f) = .next (s.raise (.outOfBoundsAccess .reg a.toNat)) := by
  rw [regidx_of_gt h, error_bind, State.finish_error]

theorem finish_regidx_of_find? {x : Byte} (h : [a].find? badOperand = some x) (f : RegIdx → Except FaultCause State) :
    s.finish (regidx a >>= f) = .next (s.raise (.outOfBoundsAccess .reg x.toNat)) := by
  obtain ⟨ha, rfl⟩ := find?_badOperand_singleton.1 h
  exact finish_regidx_of_gt ha f

theorem finish_regidx_pair_of_find? {x : Byte} (h : [a, b].find? badOperand = some x)
    (f : RegIdx → RegIdx → Except FaultCause State) :
    s.finish (regidx a >>= fun k => regidx b >>= f k) = .next (s.raise (.outOfBoundsAccess .reg x.toNat)) := by
  obtain ⟨ha, rfl⟩ | ⟨ha, hb, rfl⟩ := find?_badOperand_pair.1 h
  · exact finish_regidx_of_gt ha _
  · obtain ⟨k, hk⟩ := regidx_of_le ha
    rw [hk, ok_bind, finish_regidx_of_gt hb]

/-- The first bad register operand of any instruction is what it raises, before anything else it does (R51). -/
theorem exec_of_badOperand (h : i.registerOperands.find? badOperand = some b) :
    exec i s = .next (s.raise (.outOfBoundsAccess .reg b.toNat)) := by
  cases i with
  | hlt | ret => cases h
  | ldi | prn | push | pop | call | jmp | jeq | jne => exact finish_regidx_of_find? h _
  | mul | cmp => exact finish_regidx_pair_of_find? h _

theorem Raises.exec (h : Raises s i c) : exec i s = .next (s.raise c) := by
  cases h with
  | badOperand h => exact exec_of_badOperand h
  | ldiProtected ha hp =>
    simp only [Machine.exec, execLdi, ldiEffect, regidx_of_eq ha, dest_of_protected hp, ok_bind, error_bind,
      State.finish_error]
  | mulProtected ha hb hp =>
    obtain ⟨l, hl⟩ := regidx_of_le hb
    simp only [Machine.exec, execMul, mulEffect, regidx_of_eq ha, hl, dest_of_protected hp, ok_bind, error_bind,
      State.finish_error]
  | popProtected ha hp =>
    simp only [Machine.exec, execPop, popEffect, regidx_of_eq ha, dest_of_protected hp, ok_bind, error_bind,
      State.finish_error]
  | pushOverflow ha hs =>
    obtain ⟨k, hk⟩ := regidx_of_le ha
    simp only [Machine.exec, execPush, pushEffect, hk, State.decSp_of_zero hs, ok_bind, error_bind, State.finish_error]
  | callAddress ha hp =>
    obtain ⟨k, hk⟩ := regidx_of_le ha
    have hp : s.returnAddress > 255 := hp
    simp only [Machine.exec, execCall, callEffect, hk, ok_bind, if_pos hp, State.finish_error]
    rfl
  | callOverflow ha hp hs =>
    obtain ⟨k, hk⟩ := regidx_of_le ha
    have hp : ¬ s.returnAddress > 255 := Nat.not_lt.2 hp
    simp only [Machine.exec, execCall, callEffect, hk, ok_bind, if_neg hp, State.push_of_zero hs, error_bind,
      State.finish_error]
  | popUnderflow ha hk hs => exact execPop_error ha hk hs
  | popSpUnderflow ha hp hs => exact execPop_sp_error ha hp hs
  | retUnderflow hs => exact execRet_error hs

/-! ### `exec` does nothing else -/

/-- One of the two relations has an answer for the instruction. -/
def Answers (s : State) (i : Instr) : Prop := (∃ t, Completes s i t) ∨ ∃ c, Raises s i c

theorem index_or_bad (a : Byte) : (∃ k : RegIdx, a.toNat = k.val) ∨ 7 < a.toNat :=
  (regidx_cases a).imp (fun ⟨k, hk, _⟩ => ⟨k, hk⟩) And.left

theorem writable_or_protected (s : State) (k : RegIdx) :
    s.writable k ∨ k = s.cfg.spIndex ∧ s.cfg.spProtect = .faultOnWrite :=
  (dest_cases s.cfg k).imp And.left fun ⟨hk, hp, _⟩ => ⟨hk, hp⟩

theorem answers_of_operand (hi : i.registerOperands = [a]) (h : ∀ k : RegIdx, a.toNat = k.val → Answers s i) :
    Answers s i := by
  obtain ⟨k, hk⟩ | ha := index_or_bad a
  · exact h k hk
  · exact .inr ⟨_, .badOperand (hi ▸ find?_badOperand_singleton.2 ⟨ha, rfl⟩)⟩

theorem answers_of_operands (hi : i.registerOperands = [a, b])
    (h : ∀ k l : RegIdx, a.toNat = k.val → b.toNat = l.val → Answers s i) : Answers s i := by
  obtain ⟨k, hk⟩ | ha := index_or_bad a
  · obtain ⟨l, hl⟩ | hb := index_or_bad b
    · exact h k l hk hl
    · exact .inr ⟨_, .badOperand (hi ▸ find?_badOperand_pair.2 (.inr ⟨toNat_le_of_index hk, hb, rfl⟩))⟩
  · exact .inr ⟨_, .badOperand (hi ▸ find?_badOperand_pair.2 (.inl ⟨ha, rfl⟩))⟩

theorem answers_pop {k : RegIdx} (ha : a.toNat = k.val) : Answers s (.pop a) := by
  obtain hw | ⟨rfl, hp⟩ := writable_or_protected s k
  · by_cases hk : k = s.cfg.spIndex
    · subst hk
      by_cases hs : s.sp = 255 ∨ s.mem.get s.sp.toNat = 255
      · exact .inr ⟨_, .popSpUnderflow ha (hw rfl) hs⟩
      · obtain ⟨hs, hv⟩ := not_or.1 hs
        exact .inl ⟨_, .popSp ha (hw rfl) hs hv⟩
    · by_cases hs : s.sp = 255
      · exact .inr ⟨_, .popUnderflow ha hk hs⟩
      · exact .inl ⟨_, .pop ha hk hs⟩
  · exact .inr ⟨_, .popProtected ha hp⟩

theorem answers_call {k : RegIdx} (ha : a.toNat = k.val) : Answers s (.call a) := by
  by_cases hp : s.pc.toNat + 2 ≤ 255
  · by_cases hs : s.sp = 0
    · exact .inr ⟨_, .callOverflow (toNat_le_of_index ha) hp hs⟩
    · exact .inl ⟨_, .call ha hp hs⟩
  · exact .inr ⟨_, .callAddress (toNat_le_of_index ha) (Nat.not_le.1 hp)⟩

/-- Every instruction completes or raises, in every state. -/
theorem answers (i : Instr) (s : State) : Answers s i := by
  cases i with
  | hlt => exact .inl ⟨_, .hlt⟩
  | ldi a b =>
    refine answers_of_operand rfl fun k ha => ?_
    obtain hw | ⟨rfl, hp⟩ := writable_or_protected s k
    · exact .inl ⟨_, .ldi ha hw⟩
    · exact .inr ⟨_, .ldiProtected ha hp⟩
  | prn a => exact answers_of_operand rfl fun k ha => .inl ⟨_, .prn ha⟩
  | mul a b =>
    refine answers_of_operands rfl fun k l ha hb => ?_
    obtain hw | ⟨rfl, hp⟩ := writable_or_protected s k
    · exact .inl ⟨_, .mul ha hb hw⟩
    · exact .inr ⟨_, .mulProtected ha (toNat_le_of_index hb) hp⟩
  | push a =>
    refine answers_of_operand rfl fun k ha => ?_
    by_cases hs : s.sp = 0
    · exact .inr ⟨_, .pushOverflow (toNat_le_of_index ha) hs⟩
    · exact .inl ⟨_, .push ha hs⟩
  | pop a => exact answers_of_operand rfl fun k ha => answers_pop ha
  | call a => exact answers_of_operand rfl fun k ha => answers_call ha
  | ret =>
    by_cases hs : s.sp = 255
    · exact .inr ⟨_, .retUnderflow hs⟩
    · exact .inl ⟨_, .ret hs⟩
  | jmp a => exact answers_of_operand rfl fun k ha => .inl ⟨_, .jmp ha⟩
  | cmp a b => exact answers_of_operands rfl fun k l ha hb => .inl ⟨_, .cmp ha hb⟩
  | jeq a => exact answers_of_operand rfl fun k ha => .inl ⟨_, .jeq ha⟩
  | jne a => exact answers_of_operand rfl fun k ha => .inl ⟨_, .jne ha⟩

/-- Whatever an instruction answers is one of the two. -/
theorem exec_next (h : exec i s = .next t) : Completes s i t ∨ ∃ c, Raises s i c ∧ t = s.raise c := by
  obtain ⟨u, hu⟩ | ⟨c, hc⟩ := answers i s
  · cases hu.exec.symm.trans h
    exact .inl hu
  · cases hc.exec.symm.trans h
    exact .inr ⟨c, hc, rfl⟩

/-! ### Where an instruction faults -/

/-- Settles O33: the first bad operand is the fault, whatever else would apply. -/
theorem firstBadRegisterOperandFaults : Obligations.FirstBadRegisterOperandFaults :=
  fun _ _ _ h => exec_of_badOperand h

/-- Settles O34: a protected destination is refused once the indices are validated. -/
theorem protectedStackPointerWriteFaults : Obligations.ProtectedStackPointerWriteFaults := fun _ _ _ ha hp =>
  ⟨(Raises.ldiProtected ha hp).exec, (Raises.popProtected ha hp).exec, fun hb => (Raises.mulProtected ha hb hp).exec⟩

/-- Settles O35: the four excursions of the stack pointer beyond its range. -/
theorem stackExcursionsFault : Obligations.StackExcursionsFault := by
  intro s a i ha
  have hle := toNat_le_of_index ha
  exact ⟨fun hs => (Raises.pushOverflow hle hs).exec, fun hs hp => (Raises.callOverflow hle hp hs).exec,
    fun hs hi => (Raises.popUnderflow ha hi hs).exec, fun hs => (Raises.retUnderflow hs).exec⟩

/-- Settles O36: CALL checks its return address before it looks at the stack pointer. -/
theorem callReturnAddressBeyondMemoryFaults : Obligations.CallReturnAddressBeyondMemoryFaults :=
  fun _ _ _ ha hp => (Raises.callAddress (toNat_le_of_index ha) hp).exec

end Sys2Proof.Machine
end

section
/-!
What a completed instruction leaves unchanged and what it may change, read off `Completes` field by field, and what a
step can do, in terms of it: complete the fetched instruction, or raise in the state after the fetch.
-/

namespace Sys2Proof.Machine

variable {s t : State} {i : Instr} {j k : RegIdx}

/-! ### The frame of a completed instruction -/

theorem Completes.cfg_eq (h : Completes s i t) : t.cfg = s.cfg := by cases h <;> rfl

theorem Completes.fault_eq (h : Completes s i t) : t.fault = s.fault := by cases h <;> rfl

theorem Completes.run_eq (h : Completes s i t) (hi : i ≠ .hlt) : t.run = s.run := by
  cases h with
  | hlt => exact absurd rfl hi
  | _ => rfl

theorem Completes.run_ne_faulted (h : Completes s i t) (hr : s.run = .running) : t.run ≠ .faulted := by
  by_cases hi : i = .hlt
  · subst hi
    cases h
    exact nofun
  · rw [h.run_eq hi, hr]
    exact nofun

theorem Completes.flags_eq (h : Completes s i t) (hi : ∀ a b, i ≠ .cmp a b) : t.flags = s.flags := by
  cases h with
  | cmp => exact absurd rfl (hi _ _)
  | _ => rfl

/-- Memory is as before, or PUSH or CALL wrote the cell below the top of the stack (20_memory.md section 5). -/
theorem Completes.mem_eq (h : Completes s i t) : t.mem = s.mem ∨
    (∃ a, i = .push a ∨ i = .call a) ∧ s.sp ≠ 0 ∧ ∃ v, t.mem = s.mem.set (s.sp - 1).toNat v := by
  cases h with
  | push ha hs => exact .inr ⟨⟨_, .inl rfl⟩, hs, _, rfl⟩
  | call ha hp hs => exact .inr ⟨⟨_, .inr rfl⟩, hs, _, rfl⟩
  | _ => exact .inl rfl

theorem eq_of_reg_setReg_ne {v : Byte} (h : (s.setReg k v).reg j ≠ s.reg j) : j = k :=
  not_imp_comm.1 (State.reg_setReg_of_ne s v) h

/-- The table of writers of 10_state.md section 2. -/
theorem Completes.writer (h : Completes s i t) (hj : t.reg j ≠ s.reg j) :
    (∃ a b, a.toNat = j.val ∧ (i = .ldi a b ∨ i = .mul a b ∨ i = .pop a)) ∨
    j = s.cfg.spIndex ∧ (i = .ret ∨ ∃ a, i = .push a ∨ i = .pop a ∨ i = .call a) := by
  cases h with
  | @ldi a b k ha hw =>
    obtain rfl := eq_of_reg_setReg_ne hj
    exact .inl ⟨a, b, ha, .inl rfl⟩
  | @mul a b k l ha hb hw =>
    obtain rfl := eq_of_reg_setReg_ne hj
    exact .inl ⟨a, b, ha, .inr (.inl rfl)⟩
  | @pop a k ha hk hs =>
    by_cases hjk : j = k
    · exact .inl ⟨a, 0, hjk ▸ ha, .inr (.inr rfl)⟩
    · have hsp : ((s.setSp (s.sp + 1)).setReg k (s.mem.get s.sp.toNat)).reg j ≠ s.reg j := hj
      rw [State.reg_setReg_of_ne _ _ hjk] at hsp
      exact .inr ⟨eq_of_reg_setReg_ne hsp, .inr ⟨a, .inr (.inl rfl)⟩⟩
  | @popSp a ha hp hs hv => exact .inr ⟨eq_of_reg_setReg_ne hj, .inr ⟨a, .inr (.inl rfl)⟩⟩
  | @push a k ha hs => exact .inr ⟨eq_of_reg_setReg_ne hj, .inr ⟨a, .inl rfl⟩⟩
  | @call a k ha hp hs => exact .inr ⟨eq_of_reg_setReg_ne hj, .inr ⟨a, .inr (.inr rfl)⟩⟩
  | ret hs => exact .inr ⟨eq_of_reg_setReg_ne hj, .inl rfl⟩
  | hlt | prn | jmp | cmp | jeq | jne => exact absurd rfl hj

/-- An operand that may be written is not the stack pointer under the protection (R17). -/
theorem State.writable.ne_spIndex (hw : s.writable k) (hp : s.cfg.spProtect = .faultOnWrite) : k ≠ s.cfg.spIndex :=
  fun hk => nomatch (hw hk).symm.trans hp

/-- With the stack pointer protected only the stack's own operations move it, by one and never around the ends. -/
theorem Completes.sp_moves_by_one (h : Completes s i t) (hp : s.cfg.spProtect = .faultOnWrite) :
    t.sp = s.sp ∨ t.sp.toNat + 1 = s.sp.toNat ∨ t.sp.toNat = s.sp.toNat + 1 := by
  cases h with
  | ldi ha hw | mul ha hb hw => exact .inl (State.sp_setReg_of_ne s _ (hw.ne_spIndex hp))
  | popSp ha hp' hs hv => exact nomatch hp'.symm.trans hp
  | push ha hs | call ha hpc hs =>
    refine .inr (.inl ?_)
    rw [State.sp_setPc, State.sp_setMem, State.sp_setSp, toNat_sub_one hs]
  | pop ha hk hs =>
    refine .inr (.inr ?_)
    rw [State.sp_setPc, State.sp_setReg_of_ne (s.setSp _) _ hk, State.sp_setSp, toNat_add_one hs]
  | ret hs =>
    refine .inr (.inr ?_)
    rw [State.sp_setPc, State.sp_setSp, toNat_add_one hs]
  | hlt | prn | jmp | cmp | jeq | jne => exact .inl rfl

/-! ### The program counter after a completed instruction -/

/-- The operation takes `pc` from a register or from the stack: a conditional jump does so on Equal (R84, R85). -/
def State.jumps (s : State) : Op → Bool
  | .call | .ret | .jmp => true
  | .jeq => s.flags.equal
  | .jne => !s.flags.equal
  | .hlt | .ldi | .prn | .mul | .push | .pop | .cmp => false

/-- An instruction that does not jump advances `pc` by its width (R67). -/
theorem Completes.pc_advances (h : Completes s i t) (hi : s.jumps i.op = false) :
    t.pc = s.pc + BitVec.ofNat 9 i.width := by
  cases h with
  | call | ret | jmp => cases hi
  | jeq =>
    have he : s.flags.equal = false := hi
    rw [State.pc_setPc, he]
    rfl
  | jne =>
    have he : (!s.flags.equal) = false := hi
    rw [State.pc_setPc, he]
    rfl
  | _ => rfl

/-- An instruction that jumps takes `pc` from a byte. -/
theorem Completes.pc_jumps (h : Completes s i t) (hi : s.jumps i.op = true) : ∃ v : Byte, t.pc = zext9 v := by
  cases h with
  | call | ret | jmp => exact ⟨_, rfl⟩
  | jeq =>
    have he : s.flags.equal = true := hi
    exact ⟨_, by rw [State.pc_setPc, if_pos he]⟩
  | jne =>
    have he : (!s.flags.equal) = true := hi
    exact ⟨_, by rw [State.pc_setPc, if_pos he]⟩
  | _ => cases hi

/-! ### What a step can do -/

/-- A step completes the fetched instruction, or raises: with the opcode byte latched, or, when `pc` is beyond memory,
with `ir` as it was (R62). -/
theorem step_completes_or_raises (h : step s = .next t) : s.run = .running ∧
    ((∃ i, s.Fetches i ∧ Completes s.fetched i t) ∨
     ∃ x c, t = (s.latchIr x).raise c ∧ (256 ≤ s.pc.toNat → x = s.ir)) := by
  obtain ⟨hr, ⟨-, rfl⟩ | ⟨hp, ⟨r, -, rfl⟩ | ⟨i, rest, hd, he⟩⟩⟩ := step_next h
  · exact ⟨hr, .inr ⟨s.ir, _, rfl, fun _ => rfl⟩⟩
  · exact ⟨hr, .inr ⟨_, _, rfl, fun hbeyond => absurd hp (Nat.not_lt.2 hbeyond)⟩⟩
  · obtain hc | ⟨c, -, rfl⟩ := exec_next he
    · exact ⟨hr, .inl ⟨i, ⟨rest, hd⟩, hc⟩⟩
    · exact ⟨hr, .inr ⟨_, c, rfl, fun hbeyond => absurd hp (Nat.not_lt.2 hbeyond)⟩⟩

/-! ### What a step leaves unchanged -/

theorem cfg_of_step (h : step s = .next t) : t.cfg = s.cfg := by
  obtain ⟨-, ⟨i, -, hc⟩ | ⟨x, c, rfl, -⟩⟩ := step_completes_or_raises h
  · exact hc.cfg_eq
  · rfl

/-- Settles O47: neither a completed instruction nor a fault writes `cfg`. -/
theorem parametersAreFixed : Obligations.ParametersAreFixed := fun _ _ => cfg_of_step

/-- Settles O44: a step that wrote memory completed a PUSH or a CALL. -/
theorem memoryWrittenOnlyByPushAndCall : Obligations.MemoryWrittenOnlyByPushAndCall := by
  intro s t h
  obtain ⟨-, ⟨i, hf, hc⟩ | ⟨x, c, rfl, -⟩⟩ := step_completes_or_raises h
  · have hfetch {i' : Instr} (hi : i = i') : s.Fetches i' := hi ▸ hf
    obtain hm | ⟨⟨a, hi⟩, hs, v, hm⟩ := hc.mem_eq
    · exact .inl fun x => congrArg (·.get x) hm
    · refine .inr ⟨⟨a, hi.imp hfetch hfetch⟩, hs, fun x hx => ?_⟩
      exact (congrArg (·.get x) hm).trans (Memory.get_set_of_ne _ v hx)
  · exact .inl fun _ => rfl

/-- Settles O45: a step that changed a register completed one of its writers. -/
theorem registersWrittenOnlyAsListed : Obligations.RegistersWrittenOnlyAsListed := by
  intro s t j h hj
  obtain ⟨-, ⟨i, hf, hc⟩ | ⟨x, c, rfl, -⟩⟩ := step_completes_or_raises h
  · have hfetch {i' : Instr} (hi : i = i') : s.Fetches i' := hi ▸ hf
    obtain ⟨a, b, ha, hi⟩ | ⟨hsp, hi⟩ := hc.writer hj
    · exact .inl ⟨a, b, ha, hi.imp hfetch (.imp hfetch hfetch)⟩
    · exact .inr ⟨hsp, hi.imp hfetch fun ⟨a, hi⟩ => ⟨a, hi.imp hfetch (.imp hfetch hfetch)⟩⟩
  · exact absurd rfl hj

/-- Settles O46: a fault does not move the stack pointer, a completed instruction moves it by one at most. -/
theorem stackPointerMovesByOne : Obligations.StackPointerMovesByOne := by
  intro s t hp h
  obtain ⟨-, ⟨i, -, hc⟩ | ⟨x, c, rfl, -⟩⟩ := step_completes_or_raises h
  · exact hc.sp_moves_by_one hp
  · exact .inl rfl

/-- Settles O38: a step that ends in `Faulted` did not complete, and a fault changes the run state, the record and, when
there was a byte to fetch, the instruction register. -/
theorem faultEntryChangesNothingElse : Obligations.FaultEntryChangesNothingElse := by
  intro s t h ht
  obtain ⟨hr, ⟨i, -, hc⟩ | ⟨x, c, rfl, hx⟩⟩ := step_completes_or_raises h
  · exact absurd ht (hc.run_ne_faulted hr)
  · exact ⟨c, rfl, fun _ => rfl, fun _ => rfl, rfl, rfl, rfl, rfl, fun hp => hx (Nat.le_of_eq hp.symm), fun _ => nofun⟩

end Sys2Proof.Machine
end

section
/-!
The fetch in terms of memory (sections 2 and 3 of 40_engine_cycle.md): which bytes decode to which instruction, which
fetch is rejected and why, and how far `pc` advances.
-/

namespace Sys2Proof

variable {m : OpcodeMap} {o : Op}

/-- R53 item 3 for one operation. -/
theorem selfPcBit_byte (hm : m.admissible = true) {mark : Bool} (ho : o.setsPc = some mark) :
    selfPcBit (m.byte o) = mark := by
  simp only [OpcodeMap.admissible, Bool.and_eq_true] at hm
  obtain ⟨-, hmarks⟩ := hm
  have hmark := List.all_eq_true.1 hmarks o o.mem_all
  rw [ho] at hmark
  exact beq_iff_eq.1 hmark

theorem Op.setsPc_eq_none_iff : o.setsPc = none ↔ o = .jeq ∨ o = .jne := by cases o <;> decide

/-- An operation whose bit 4 is clear does not set PC itself, unless it is one of the two left open (C1). -/
theorem setsPc_eq_false (hm : m.admissible = true) (hb : selfPcBit (m.byte o) = false) (hjeq : o ≠ .jeq)
    (hjne : o ≠ .jne) : o.setsPc = some false := by
  cases hs : o.setsPc with
  | some mark => rw [← selfPcBit_byte hm hs, hb]
  | none => exact absurd (Op.setsPc_eq_none_iff.1 hs) (not_or.2 ⟨hjeq, hjne⟩)

namespace Machine

variable {s t : State} {i : Instr}

theorem bytesFrom_of_lt {p : Nat} (mem : Memory) (n : Nat) (hp : p < memSize) :
    bytesFrom mem (n + 1) p = mem.get p :: bytesFrom mem n (p + 1) := if_pos hp

/-! ### A fetched instruction -/

theorem State.Fetches.byte_eq (hf : s.Fetches i) : s.cfg.opcodes.byte i.op = s.byteAt s.pc.toNat := by
  have hp := hf.pc_lt
  obtain ⟨rest, hd⟩ := hf
  rw [maxWidth, bytesFrom_of_lt s.mem 2 hp] at hd
  exact (decode_cons_ok hd).1

/-- A fetched instruction lies within memory. -/
theorem State.Fetches.pc_add_width_le (hf : s.Fetches i) : s.pc.toNat + i.width ≤ 256 := by
  have hp : s.pc.toNat < 256 := hf.pc_lt
  obtain ⟨rest, hd⟩ := hf
  have hlen := length_bytesFrom s.mem maxWidth s.pc.toNat
  rw [maxWidth, bytesFrom_of_lt s.mem 2 hp] at hd hlen
  rw [length_eq_of_decode hd, memSize] at hlen
  omega

/-- Settles O14: the fetched state is the state with the opcode byte latched. -/
theorem stepRunsTheDecodedInstruction : Obligations.StepRunsTheDecodedInstruction :=
  fun _ _ hr hf => step_of_fetches hr hf

/-! ### Encoded bytes in memory are fetched -/

theorem length_encode (i : Instr) : (encode m i).length = i.width := by
  rw [encode, List.length_cons, i.length_operandBytes, Instr.width]

theorem fetches_of_encode (hm : s.cfg.opcodes.admissible = true) (hp : s.pc.toNat + i.width ≤ 256)
    (hb : ∀ k (h : k < (encode s.cfg.opcodes i).length), s.byteAt (s.pc.toNat + k) = (encode s.cfg.opcodes i)[k]) :
    s.Fetches i := by
  have hwidth : i.width ≤ maxWidth := Nat.succ_le_succ i.op.operandCount_le
  have hlen := length_bytesFrom s.mem maxWidth s.pc.toNat
  rw [memSize] at hlen
  have htake : (bytesFrom s.mem maxWidth s.pc.toNat).take i.width = encode s.cfg.opcodes i := by
    refine List.ext_getElem ?_ fun k hk hk' => ?_
    · rw [List.length_take, length_encode]
      omega
    · rw [List.getElem_take, getElem_bytesFrom]
      exact hb k hk'
  refine ⟨(bytesFrom s.mem maxWidth s.pc.toNat).drop i.width, ?_⟩
  rw [← List.take_append_drop i.width (bytesFrom s.mem maxWidth s.pc.toNat), htake, decode_encode hm, ← htake,
    List.take_append_drop]

/-- Settles O15: the bytes are fetched, and the one latched is the first of them. -/
theorem encodedBytesInMemoryRun : Obligations.EncodedBytesInMemoryRun := by
  intro s i hr hm hp hb
  have hf := fetches_of_encode hm hp hb
  rw [hf.byte_eq]
  exact step_of_fetches hr hf

/-! ### A rejected fetch -/

/-- Settles O18: the decoder's answer for an unknown opcode does not depend on what follows it. -/
theorem unknownOpcodeFaultsAtDispatch : Obligations.UnknownOpcodeFaultsAtDispatch := by
  intro s hr hp hb
  have hp : s.pc.toNat < memSize := Nat.lt_succ_of_le hp
  refine step_of_rejected (r := .unknownOpcode (s.byteAt s.pc.toNat)) hr hp ?_
  rw [State.decodeAtPc, maxWidth, bytesFrom_of_lt s.mem 2 hp]
  exact decode_eq_unknownOpcode_iff.2 hb

/-- Settles O19: the state the rejected fetch leaves, with the opcode byte latched. -/
theorem operandBeyondMemoryFaults : Obligations.OperandBeyondMemoryFaults := by
  intro s o hr hm hp ho hb
  rw [step_of_operand_beyond_memory hr hm (Nat.lt_succ_of_le hp) ho hb, ho]
  rfl

/-- A fetch inside memory is rejected for an unknown opcode, or for an operand at address 256. -/
theorem decodeAtPc_rejected {r : Reject} (hp : s.pc.toNat < memSize) (h : s.decodeAtPc = .rejected r) :
    r = .unknownOpcode (s.byteAt s.pc.toNat) ∧ (∀ o, s.cfg.opcodes.byte o ≠ s.byteAt s.pc.toNat) ∨
    ∃ k, r = .missingOperand k ∧ s.pc.toNat + k = 256 ∧ k ≤ 2 := by
  rw [State.decodeAtPc, maxWidth, bytesFrom_of_lt s.mem 2 hp] at h
  simp only [decode] at h
  split at h
  · next ho =>
    cases h
    exact .inl ⟨rfl, decodeOp_none.1 ho⟩
  · next o ho =>
    obtain ⟨hr, hlt⟩ := takeOperands_rejected h
    have hcount := o.operandCount_le
    have hp : s.pc.toNat < 256 := hp
    rw [length_bytesFrom, memSize] at hr hlt
    exact .inr ⟨_, hr, by omega, by omega⟩

/-! ### How far `pc` advances -/

/-- In nine bits an advance that stays within 256 is exact (R19). -/
theorem toNat_pc_add {p : PcWord} {n : Nat} (h : p.toNat + n ≤ 256) : (p + BitVec.ofNat 9 n).toNat = p.toNat + n := by
  rw [BitVec.toNat_add, BitVec.toNat_ofNat]
  omega

theorem State.jumps_eq_false {o : Op} (ho : o.setsPc = some false) (s : State) : s.jumps o = false := by
  cases o with
  | call | ret | jmp | jeq | jne => cases ho
  | _ => rfl

/-- A fetched instruction that does not jump advances `pc` past its own bytes. -/
theorem Completes.toNat_pc (hf : s.Fetches i) (h : Completes s.fetched i t) (hi : s.jumps i.op = false) :
    t.pc.toNat = s.pc.toNat + i.width := by
  rw [h.pc_advances hi]
  exact toNat_pc_add hf.pc_add_width_le

/-- Settles O20: with bit 4 clear the instruction advances by its width, which is bits 7:6 plus 1; a jump not taken by
its own width, 2. -/
theorem autoAdvanceFollowsOpcodeBits : Obligations.AutoAdvanceFollowsOpcodeBits := by
  intro s t i hm hr hf h ht
  rw [step_of_fetches hr hf] at h
  obtain hc | ⟨c, -, rfl⟩ := exec_next h
  · refine ⟨fun hb hjeq hjne => ?_, fun hi he => ?_, fun hi he => ?_⟩
    · rw [← hf.byte_eq] at hb ⊢
      rw [hc.toNat_pc hf (s.jumps_eq_false (setsPc_eq_false hm hb hjeq hjne)), nopsField_byte hm, Instr.width,
        Nat.add_assoc]
    · have hj : s.jumps i.op = false := by rw [hi, State.jumps, he]
      rw [hc.toNat_pc hf hj, Instr.width, hi]
      rfl
    · have hj : s.jumps i.op = false := by rw [hi, State.jumps, he, Bool.not_true]
      rw [hc.toNat_pc hf hj, Instr.width, hi]
      rfl
  · exact absurd rfl ht

end Machine

end Sys2Proof
end

section
/-!
The invariant (R13, R19, R23, R53): a reset establishes it, the loader and every step keep it, so every state of a run
meets it, and a run can stop only where the run state says so.
-/

namespace Sys2Proof.Machine

variable {s t : State} {i : Instr} {c : FaultCause}

/-! ### Established by a reset -/

theorem inv_resetWith {c : Config} (rs : Vector Byte 8) (f : Flags) {m : Memory} (hc : c.opcodes.admissible = true)
    (hm : m.wf) : (State.resetWith c rs f m).Inv where
  memCanonical := hm
  pcInRange := Nat.zero_le _
  recordWhenFaulted := ⟨nofun, nofun⟩
  recordNamesPc := nofun
  opcodesAdmissible := hc

/-- Settles O6: both the reset state and the host's reset are `State.resetWith` of an empty memory. -/
theorem resetMeetsInvariant : Obligations.ResetMeetsInvariant :=
  ⟨fun _ rs f _ hc hm => inv_resetWith rs f hc hm, inv_resetWith _ _ OpcodeMap.std_admissible Memory.wf_nil,
    fun _ hc => inv_resetWith _ _ hc Memory.wf_nil⟩

/-! ### Kept by every step -/

theorem State.Inv.fault_of_running (hI : s.Inv) (hr : s.run = .running) : s.fault = none :=
  hI.fault_of_ne_faulted (by simp [hr])

theorem State.Inv.latchIr (hI : s.Inv) (x : Byte) : (s.latchIr x).Inv := { hI with }

/-- A fault leaves memory, `pc` and the parameters as they were, and its record names `pc`. -/
theorem State.Inv.raise (hI : s.Inv) (c : FaultCause) : (s.raise c).Inv where
  memCanonical := hI.memCanonical
  pcInRange := hI.pcInRange
  recordWhenFaulted := ⟨fun _ => rfl, fun _ => rfl⟩
  recordNamesPc := fun r hr => by cases hr; rfl
  opcodesAdmissible := hI.opcodesAdmissible

theorem Completes.mem_wf (h : Completes s i t) (hm : s.mem.wf) : t.mem.wf := by
  obtain heq | ⟨-, -, v, heq⟩ := h.mem_eq
  · rwa [heq]
  · rw [heq]
    exact Memory.wf_set hm (byte_lt_memSize _) v

theorem Completes.pc_le (hf : s.Fetches i) (h : Completes s.fetched i t) : t.pc.toNat ≤ 256 := by
  cases hj : s.jumps i.op with
  | false =>
    rw [h.toNat_pc hf hj]
    exact hf.pc_add_width_le
  | true =>
    obtain ⟨v, hv⟩ := h.pc_jumps hj
    rw [hv, toNat_zext9]
    exact Nat.le_of_lt (byte_lt_memSize v)

theorem Completes.inv (hI : s.Inv) (hr : s.run = .running) (hf : s.Fetches i) (h : Completes s.fetched i t) :
    t.Inv := by
  have hnone : t.fault = none := h.fault_eq.trans (hI.fault_of_running hr)
  exact {
    memCanonical := h.mem_wf hI.memCanonical
    pcInRange := h.pc_le hf
    recordWhenFaulted := iff_of_false (h.run_ne_faulted hr) (by simp [hnone])
    recordNamesPc := fun r hrec => nomatch hnone.symm.trans hrec
    opcodesAdmissible := h.cfg_eq ▸ hI.opcodesAdmissible }

theorem State.Inv.step (hI : s.Inv) (h : step s = .next t) : t.Inv := by
  obtain ⟨hr, ⟨i, hf, hc⟩ | ⟨x, c, rfl, -⟩⟩ := step_completes_or_raises h
  · exact hc.inv hI hr hf
  · exact (hI.latchIr x).raise c

/-- Settles O37: a completed instruction and a fault both keep the invariant. -/
theorem stepKeepsInvariant : Obligations.StepKeepsInvariant := fun _ _ hI h => hI.step h

/-! ### Along a run -/

theorem State.Inv.reaches (hI : s.Inv) (h : Reaches s t) : t.Inv := by
  induction h with
  | refl => exact hI
  | tail _ hu ih => exact ih.step hu

/-- Settles O53: the invariant along the run, and what it says of the record in each run state. -/
theorem runEndsOnlyHaltedOrFaulted : Obligations.RunEndsOnlyHaltedOrFaulted := by
  intro s t hI h
  have hT := hI.reaches h
  refine ⟨hT, ?_⟩
  cases hr : t.run with
  | running => exact .inl ⟨(stepEnabledExactlyWhenRunning t).2 hr, hT.fault_of_running hr⟩
  | halted => exact .inr (.inl ⟨rfl, hT.fault_of_ne_faulted (by simp [hr])⟩)
  | faulted => exact .inr (.inr ⟨rfl, hT.fault_of_faulted hr⟩)

/-! ### A recorded fault is true (60_exceptions.md section 1) -/

/-- What an instruction raises is warranted by the fetched operands and the state. -/
theorem Raises.warrants (hf : s.Fetches i) (h : Raises s.fetched i c) : s.Warrants c := by
  cases h with
  | badOperand h => exact ⟨badOperand_iff.1 (List.find?_some h), i, _, hf, List.mem_of_find?_eq_some h, rfl⟩
  | ldiProtected ha hp => exact ⟨rfl, hp, _, _, ha, .inl hf⟩
  | mulProtected ha hb hp => exact ⟨rfl, hp, _, _, ha, .inr (.inl hf)⟩
  | popProtected ha hp => exact ⟨rfl, hp, _, 0, ha, .inr (.inr hf)⟩
  | pushOverflow ha hs => exact ⟨rfl, hs, _, .inl hf⟩
  | callOverflow ha hp hs => exact ⟨rfl, hs, _, .inr hf⟩
  | callAddress ha hp =>
    have hle : s.pc.toNat + 2 ≤ 256 := hf.pc_add_width_le
    have hgt : 255 < s.pc.toNat + 2 := hp
    exact ⟨Nat.le_antisymm hle hgt, by omega⟩
  | popUnderflow ha hk hs => exact ⟨rfl, .inl ⟨hs, .inr ⟨_, hf⟩⟩⟩
  | popSpUnderflow ha hp hs =>
    obtain hs | hv := hs
    · exact ⟨rfl, .inl ⟨hs, .inr ⟨_, hf⟩⟩⟩
    · exact ⟨rfl, .inr ⟨hv, hp, _, ha, hf⟩⟩
  | retUnderflow hs => exact ⟨rfl, .inl ⟨hs, .inl hf⟩⟩

/-- What a rejected fetch raises is the unknown byte at `pc`, or address 256. -/
theorem warrants_rejectCause {r : Reject} (hp : s.pc.toNat < memSize) (h : s.decodeAtPc = .rejected r) :
    s.Warrants (s.rejectCause r) := by
  obtain ⟨rfl, hb⟩ | ⟨k, rfl, hk, hle⟩ := decodeAtPc_rejected hp h
  · exact ⟨rfl, hb⟩
  · exact ⟨hk, by omega⟩

/-- Settles O39: the three places a fault comes from; an instruction that completes records none. -/
theorem recordedFaultIsTrue : Obligations.RecordedFaultIsTrue := by
  intro s t c hI h ht
  obtain ⟨hr, ⟨hp, rfl⟩ | ⟨hp, ⟨r, hd, rfl⟩ | ⟨i, rest, hd, he⟩⟩⟩ := step_next h
  · cases ht
    exact ⟨Nat.le_antisymm hI.pcInRange hp, by omega⟩
  · cases ht
    exact warrants_rejectCause hp hd
  · obtain hc | ⟨c', hc, rfl⟩ := exec_next he
    · cases (hc.fault_eq.trans (hI.fault_of_running hr)).symm.trans ht
    · cases ht
      exact hc.warrants ⟨rest, hd⟩

end Sys2Proof.Machine
end

section
/-!
What reads and writes the flags (section 4 of 10_state.md) and the instruction register (section 6). Only a completed CMP
writes the flags; of them only Equal is read, by the conditional jumps; the instruction register is read by nothing.
-/

namespace Sys2Proof.Machine

variable {s t : State} {i : Instr} {a b : Byte} {c : FaultCause} {f : Flags}

/-! ### Only CMP writes the flags -/

/-- Exactly one of equal, below, above holds of two numbers. -/
theorem exactlyOne_compareFlags (x y : Byte) : (compareFlags x y).exactlyOne = true := by
  simp only [compareFlags, Flags.exactlyOne]
  rcases lt_trichotomy x.toNat y.toNat with h | h | h
  · simp [h, Nat.lt_asymm h, Nat.ne_of_lt h]
  · simp [h]
  · simp [h, Nat.lt_asymm h, Nat.ne_of_gt h]

/-- With a register index in both operands CMP completes. -/
theorem execCmp_of_le (ha : a.toNat ≤ 7) (hb : b.toNat ≤ 7) (h : execCmp a b s = .next t) :
    t.run = s.run ∧ t.flags.exactlyOne = true := by
  obtain ⟨hgt, -⟩ | ⟨k, -, ⟨hgt, -⟩ | ⟨l, -, rfl⟩⟩ := execCmp_next h
  · exact absurd ha (Nat.not_le.2 hgt)
  · exact absurd hb (Nat.not_le.2 hgt)
  · exact ⟨rfl, exactlyOne_compareFlags _ _⟩

/-- With an index above 7 in either operand CMP faults. -/
theorem execCmp_of_gt (hab : 7 < a.toNat ∨ 7 < b.toNat) (h : execCmp a b s = .next t) :
    t.run = .faulted ∧ SameFlags s t := by
  obtain ⟨-, rfl⟩ | ⟨k, hk, ⟨-, rfl⟩ | ⟨l, hl, -⟩⟩ := execCmp_next h
  · exact ⟨rfl, rfl⟩
  · exact ⟨rfl, rfl⟩
  · have ha := toNat_le_of_index hk
    have hb := toNat_le_of_index hl
    omega

/-- A step that changes the flags completed a CMP. -/
theorem fetches_cmp_of_flags_ne (h : step s = .next t) (hfl : t.flags ≠ s.flags) :
    t.run = .running ∧ ∃ a b, s.Fetches (.cmp a b) := by
  obtain ⟨hr, ⟨i, hf, hc⟩ | ⟨x, c, rfl, -⟩⟩ := step_completes_or_raises h
  · obtain ⟨a, b, rfl⟩ : ∃ a b, i = .cmp a b := by
      by_contra hi
      exact hfl (hc.flags_eq fun a b he => hi ⟨a, b, he⟩)
    exact ⟨(hc.run_eq nofun).trans hr, a, b, hf⟩
  · exact absurd rfl hfl

/-- Settles O40: the flags change under a completed CMP only, a fault leaves them, and a fetched CMP is one or the other
by its operand bytes. -/
theorem flagsWrittenOnlyByCompare : Obligations.FlagsWrittenOnlyByCompare := by
  intro s t h
  have hr : s.run = .running := (step_next h).1
  refine ⟨fetches_cmp_of_flags_ne h, fun ht => ?_, fun a b hf => ?_⟩
  · obtain ⟨c, -, -, -, hflags, -⟩ := faultEntryChangesNothingElse s t h ht
    exact hflags
  · rw [step_of_fetches hr hf] at h
    refine ⟨fun ha hb => ?_, fun hab => execCmp_of_gt (s := s.fetched) hab h⟩
    obtain ⟨hrun, hone⟩ := execCmp_of_le ha hb h
    exact ⟨hrun.trans hr, hone⟩

/-! ### Less and Greater are not read -/

/-- Whether an instruction faults does not depend on the flags. -/
theorem Raises.setFlags (h : Raises s i c) (f : Flags) : Raises (s.setFlags f) i c := by
  cases h with
  | badOperand h => exact .badOperand h
  | ldiProtected ha hp => exact .ldiProtected ha hp
  | mulProtected ha hb hp => exact .mulProtected ha hb hp
  | popProtected ha hp => exact .popProtected ha hp
  | pushOverflow ha hs => exact .pushOverflow ha hs
  | callAddress ha hp => exact .callAddress ha hp
  | callOverflow ha hp hs => exact .callOverflow ha hp hs
  | popUnderflow ha hk hs => exact .popUnderflow ha hk hs
  | popSpUnderflow ha hp hs => exact .popSpUnderflow ha hp hs
  | retUnderflow hs => exact .retUnderflow hs

/-- An instruction other than CMP reads no flag but Equal and carries the flags through. -/
theorem Completes.setFlags (h : Completes s i t) (hi : ∀ a b, i ≠ .cmp a b) (he : f.equal = s.flags.equal) :
    Completes (s.setFlags f) i (t.setFlags f) := by
  cases h with
  | cmp => exact absurd rfl (hi _ _)
  | jeq ha =>
    rw [← he]
    exact .jeq ha
  | jne ha =>
    rw [← he]
    exact .jne ha
  | hlt => exact .hlt
  | ldi ha hw => exact .ldi ha hw
  | prn ha => exact .prn ha
  | mul ha hb hw => exact .mul ha hb hw
  | push ha hs => exact .push ha hs
  | pop ha hk hs => exact .pop ha hk hs
  | popSp ha hp hs hv => exact .popSp ha hp hs hv
  | call ha hp hs => exact .call ha hp hs
  | ret hs => exact .ret hs
  | jmp ha => exact .jmp ha

/-- CMP recomputes all three flags, whatever they were (R83). -/
theorem Completes.cmp_setFlags (h : Completes s (.cmp a b) t) (f : Flags) : Completes (s.setFlags f) (.cmp a b) t := by
  cases h with
  | cmp ha hb => exact .cmp ha hb

theorem exec_setFlags (h : exec i s = .next t) (he : f.equal = s.flags.equal) :
    ∃ g, exec i (s.setFlags f) = .next (t.setFlags g) ∧ g.equal = t.flags.equal := by
  obtain hc | ⟨c, hc, rfl⟩ := exec_next h
  · by_cases hi : ∃ a b, i = .cmp a b
    · obtain ⟨a, b, rfl⟩ := hi
      exact ⟨t.flags, (hc.cmp_setFlags f).exec, rfl⟩
    · have hi (a b : Byte) : i ≠ .cmp a b := fun h => hi ⟨a, b, h⟩
      exact ⟨f, (hc.setFlags hi he).exec, by rw [he, hc.flags_eq hi]⟩
  · exact ⟨f, (hc.setFlags f).exec, he⟩

/-- The fetch does not read the flags, so the step depends on them as its instruction does. -/
theorem step_setFlags (h : step s = .next t) (he : f.equal = s.flags.equal) :
    ∃ g, step (s.setFlags f) = .next (t.setFlags g) ∧ g.equal = t.flags.equal := by
  obtain ⟨hr, ⟨hp, rfl⟩ | ⟨hp, ⟨r, hd, rfl⟩ | ⟨i, rest, hd, hx⟩⟩⟩ := step_next h
  · exact ⟨f, step_of_pc_beyond_memory (s := s.setFlags f) hr hp, he⟩
  · exact ⟨f, step_of_rejected (s := s.setFlags f) hr hp hd, he⟩
  · rw [step_of_fetches (s := s.setFlags f) hr ⟨rest, hd⟩]
    exact exec_setFlags hx he

theorem agreeButLessGreater_iff : AgreeButLessGreater s t ↔ ∃ f : Flags, f.equal = s.flags.equal ∧ t = s.setFlags f := by
  constructor
  · rintro ⟨he, hs⟩
    refine ⟨t.flags, he.symm, ?_⟩
    rw [hs]
    rfl
  · rintro ⟨f, he, rfl⟩
    exact ⟨he.symm, rfl⟩

/-- Settles O41: a state that agrees but for Less and Greater is the state with other flags and the same Equal. -/
theorem lessGreaterAreNeverRead : Obligations.LessGreaterAreNeverRead := by
  intro s t hst s' h
  obtain ⟨f, he, rfl⟩ := agreeButLessGreater_iff.1 hst
  obtain ⟨g, hstep, hg⟩ := step_setFlags h he
  exact ⟨_, hstep, agreeButLessGreater_iff.2 ⟨g, hg, rfl⟩⟩

/-! ### The instruction register is not read -/

/-- A fetch inside memory overwrites the instruction register before anything else happens (R62). -/
theorem cycle_latchIr_of_lt (hp : s.pc.toNat < memSize) (x : Byte) : (s.latchIr x).cycle = s.cycle := by
  have hd : (s.latchIr x).decodeAtPc = s.decodeAtPc := rfl
  have hf : (s.latchIr x).fetched = s.fetched := rfl
  simp only [State.cycle, State.pc_latchIr, if_pos hp, hd, hf]
  rfl

theorem step_latchIr_of_lt (hp : s.pc.toNat < memSize) (x : Byte) : step (s.latchIr x) = step s := by
  simp only [step, State.run_latchIr, cycle_latchIr_of_lt hp]

/-- Beyond memory the fetch leaves the instruction register, and the fault is otherwise the same. -/
theorem withIr_step_latchIr (s : State) (x y : Byte) : withIr y (step (s.latchIr x)) = withIr y (step s) := by
  by_cases hp : s.pc.toNat < memSize
  · rw [step_latchIr_of_lt hp]
  · cases hr : s.run with
    | running =>
      have hp : 255 < s.pc.toNat := Nat.not_lt.1 hp
      rw [step_of_pc_beyond_memory hr hp, step_of_pc_beyond_memory (s := s.latchIr x) hr hp]
      rfl
    | halted | faulted => simp only [step, State.run_latchIr, hr]

/-- Settles O43: inside memory the fetch overwrites the register, beyond it the fault keeps it. -/
theorem instructionRegisterIsNeverRead : Obligations.InstructionRegisterIsNeverRead := fun s x y =>
  ⟨withIr_step_latchIr s x y, fun hp => .inl (step_latchIr_of_lt (Nat.lt_succ_of_le hp) x)⟩

end Sys2Proof.Machine
end

section
/-!
Reset and the loader (10_state.md section 7, 70_reset_and_hazards.md section 2), and the two places where an access or an
operand is refused for its value.
-/

namespace Sys2Proof.Machine

variable {s : State} {bs : List Byte}

/-- Settles O2: the bound of both accesses fails. -/
theorem addressAbove255Faults : Obligations.AddressAbove255Faults := by
  intro m a v ha
  have hbeyond : ¬ a < memSize := Nat.not_lt.2 ha
  exact ⟨if_neg hbeyond, if_neg hbeyond⟩

/-- Settles O4: the index is the byte's number or its fault, and LDI stores its second byte as it is. -/
theorem operandBytesAreWhole : Obligations.OperandBytesAreWhole := by
  refine fun s a b i => ⟨regidx_of_eq, regidx_of_gt, fun ha hw => ⟨_, execLdi_ok ha hw, ?_⟩⟩
  rw [State.reg_setPc, State.reg_setReg_self]

/-! ### Reset -/

theorem State.reg_resetWith_of_ne {c : Config} {j : RegIdx} (rs : Vector Byte 8) (f : Flags) (m : Memory)
    (h : j ≠ c.spIndex) : (State.resetWith c rs f m).reg j = rs[j] :=
  (State.reg_resetWith c rs f m j).trans (if_neg h.symm)

/-- Every register but the stack pointer is zero after the host's reset (D12). -/
theorem State.reg_hostReset_of_ne {j : RegIdx} (h : j ≠ s.cfg.spIndex) : s.hostReset.reg j = 0 :=
  (State.reg_resetWith_of_ne _ _ _ h).trans (Vector.getElem_replicate j.isLt)

theorem State.reset_eq_hostReset : State.reset = State.reset.hostReset := rfl

/-- Settles O5: every reset is a `State.resetWith`, and a default is that of the host's reset. -/
theorem resetGivesTheListedValues : Obligations.ResetGivesTheListedValues := by
  refine ⟨fun c rs f m => ⟨rfl, State.sp_resetWith c rs f m, rfl, fun i hi => State.reg_resetWith_of_ne rs f m hi, rfl,
      fun _ => rfl, rfl, rfl, rfl, rfl⟩, fun i hi => ?_, State.sp_resetWith _ _ _ _, rfl, fun _ => rfl, rfl,
    fun s => ⟨rfl, State.sp_resetWith _ _ _ _, rfl, fun i hi => State.reg_hostReset_of_ne hi, rfl, fun _ => rfl, rfl,
      rfl, rfl, rfl⟩⟩
  rw [State.reset_eq_hostReset]
  exact State.reg_hostReset_of_ne hi

/-! ### The loader -/

/-- The loader leaves the cells outside its range as they were. -/
theorem get_loadBytes_of_outside {k : Nat} (m : Memory) (a : Nat) (bs : List Byte) (h : k < a ∨ a + bs.length ≤ k) :
    (loadBytes m a bs).get k = m.get k := by
  induction bs generalizing m a with
  | nil => rfl
  | cons b bs ih =>
    rw [List.length_cons] at h
    rw [loadBytes, ih _ _ (by omega), Memory.get_set_of_ne m b (by omega)]

/-- The loader puts the bytes in the cells from `a` up, in order. -/
theorem get_loadBytes (m : Memory) (a : Nat) (bs : List Byte) (k : Nat) (h : k < bs.length) :
    (loadBytes m a bs).get (a + k) = bs[k] := by
  induction bs generalizing m a k with
  | nil => cases h
  | cons b bs ih =>
    cases k with
    | zero => exact (get_loadBytes_of_outside _ _ _ (.inl a.lt_succ_self)).trans (Memory.get_set_self m a b)
    | succ k =>
      rw [List.getElem_cons_succ, ← ih (m.set a b) (a + 1) k (Nat.lt_of_succ_lt_succ h), Nat.add_right_comm]
      rfl

theorem State.load_of_le (h : bs.length ≤ memSize) : s.load bs = .ok (s.setMem (loadBytes s.mem 0 bs)) := if_pos h

theorem State.load_of_gt (h : memSize < bs.length) : s.load bs = .error (.outOfBoundsAccess .mem memSize) :=
  if_neg (Nat.not_le.2 h)

/-- Only memory changes, and the loader keeps its canonical form. -/
theorem State.Inv.load (hI : s.Inv) (h : bs.length ≤ memSize) : (s.setMem (loadBytes s.mem 0 bs)).Inv :=
  { hI with memCanonical := loadBytes_wf hI.memCanonical 0 bs (by rwa [Nat.zero_add]) }

/-- Settles O7: what the loader writes, what it leaves, and the length it refuses. -/
theorem loaderPlacesTheProgram : Obligations.LoaderPlacesTheProgram := by
  refine fun s p => ⟨fun hp => ⟨_, State.load_of_le hp, fun k hk => ?_, fun k hk => ?_, rfl, fun hI => hI.load hp⟩,
    State.load_of_gt⟩
  · rw [State.byteAt_setMem, ← get_loadBytes s.mem 0 p k hk, Nat.zero_add]
  · exact get_loadBytes_of_outside s.mem 0 p (.inr (by rwa [Nat.zero_add]))

end Sys2Proof.Machine
end

section
/-!
What each instruction does when it completes, with its frame (sections 41 to 45): the closed form of its effect, read at
every field. A read of the updated state is decided by the laws of `setReg` and `setSp`; every other field is the old one.
-/

namespace Sys2Proof.Machine

variable {s : State} {v : Byte}

/-! ### What the register updates leave -/

theorem sameRegsExcept_setReg (s : State) (k : RegIdx) (v : Byte) : SameRegsExcept [k] s (s.setReg k v) :=
  fun _ hj => State.reg_setReg_of_ne s v (List.ne_of_not_mem_cons hj)

theorem sameRegsExcept_setSp (s : State) (v : Byte) : SameRegsExcept [s.cfg.spIndex] s (s.setSp v) :=
  sameRegsExcept_setReg s _ v

theorem sameRegsExcept_setSp_setReg (s : State) (k : RegIdx) (v w : Byte) :
    SameRegsExcept [k, s.cfg.spIndex] s ((s.setSp v).setReg k w) := by
  intro j hj
  rw [sameRegsExcept_setReg (s.setSp v) k w j fun h => hj (List.mem_append_left _ h)]
  exact sameRegsExcept_setSp s v j fun h => hj (List.mem_cons_of_mem _ h)

/-- A register as it reads once the stack pointer holds `v`. -/
theorem State.reg_setSp_eq_ite (s : State) (v : Byte) (k : RegIdx) :
    (s.setSp v).reg k = if k = s.cfg.spIndex then v else s.reg k := by
  simp only [State.reg_setSp, eq_comm]

theorem sameMemExcept_set {t : State} {a : Nat} (h : t.mem = s.mem.set a v) : SameMemExcept a s t :=
  fun x hx => (congrArg (·.get x) h).trans (Memory.get_set_of_ne _ v hx)

theorem byteAt_of_set {t : State} {a : Nat} (h : t.mem = s.mem.set a v) : t.byteAt a = v :=
  (congrArg (·.get a) h).trans (Memory.get_set_self _ a v)

/-! ### LDI, PRN, MUL -/

/-- Settles O22: the destination reads as the immediate, and `setReg` leaves the other registers. -/
theorem ldiLoadsImmediate : Obligations.LdiLoadsImmediate := fun s _ b i ha hw =>
  ⟨_, execLdi_ok ha hw, State.reg_setReg_self s i b, sameRegsExcept_setReg s i b, rfl, rfl, fun _ => rfl, rfl,
    rfl, rfl, rfl, rfl⟩

/-- Settles O23: the closed form of PRN's effect, whose only new fields are the log and `pc`. -/
theorem prnEmitsRegister : Obligations.PrnEmitsRegister := fun _ _ _ ha =>
  ⟨_, execPrn_ok ha, rfl, rfl, fun _ => rfl, rfl, fun _ => rfl, rfl, rfl, rfl, rfl⟩

/-- Settles O24: the destination reads as `mulMod256` of the two registers as they were. -/
theorem mulMultipliesMod256 : Obligations.MulMultipliesMod256 := by
  refine fun s a b i j ha hb hw => ⟨_, execMul_ok ha hb hw, ?_, sameRegsExcept_setReg s i _, rfl, rfl, fun _ => rfl, rfl,
    rfl, rfl, rfl, rfl⟩
  rw [State.reg_setPc, State.reg_setReg_self, toNat_mulMod256]

/-! ### PUSH and POP -/

/-- Settles O25: the decrement is exact as `SP` is not 0, and the value stored is the register after it. -/
theorem pushStoresBelowTop : Obligations.PushStoresBelowTop := by
  refine fun s a i ha hs => ⟨_, execPush_ok ha hs, ?_, ?_, sameMemExcept_set rfl, sameRegsExcept_setSp s _, rfl, rfl, rfl,
    rfl, rfl, rfl, rfl⟩
  · rw [State.sp_setPc, State.sp_setMem, State.sp_setSp, toNat_sub_one hs]
  · rw [byteAt_of_set (s := s) rfl, State.reg_setSp_eq_ite]

/-- Settles O26: the destination is not the stack pointer, so each of the two writes is read back. -/
theorem popLoadsTop : Obligations.PopLoadsTop := by
  refine fun s a i ha hi hs => ⟨_, execPop_ok ha hi hs, ?_, ?_, sameRegsExcept_setSp_setReg s i _ _, rfl, rfl,
    fun _ => rfl, rfl, rfl, rfl, rfl, rfl⟩
  · rw [State.reg_setPc, State.reg_setReg_self]
    rfl
  · rw [State.sp_setPc, State.sp_setReg_of_ne (s.setSp _) _ hi, State.sp_setSp, toNat_add_one hs]

/-- Settles O27: the two closed forms; the popped byte is not 255, so the increment is exact. -/
theorem popIntoUnprotectedStackPointer : Obligations.PopIntoUnprotectedStackPointer := by
  refine fun s a ha hp => ⟨fun hs hv => ⟨_, execPop_sp_ok ha hp hs hv, ?_, sameRegsExcept_setSp s _, rfl, rfl,
    fun _ => rfl, rfl, rfl, rfl, rfl, rfl⟩, execPop_sp_error ha hp⟩
  rw [State.sp_setPc, State.sp_setSp]
  exact toNat_add_one hv

/-! ### CALL and RET -/

theorem toNat_returnByte {n : Nat} (h : n ≤ 255) : (BitVec.ofNat 8 n).toNat = n :=
  (BitVec.toNat_ofNat n 8).trans (Nat.mod_eq_of_lt (Nat.lt_succ_of_le h))

/-- Settles O28: the return address fits a byte, and the target is the register after the decrement. -/
theorem callPushesReturnAddress : Obligations.CallPushesReturnAddress := by
  refine fun s a i ha hp hs => ⟨_, execCall_ok ha hp hs, ?_, ?_, ?_, sameMemExcept_set rfl, sameRegsExcept_setSp s _, rfl,
    rfl, rfl, rfl, rfl, rfl⟩
  · rw [State.sp_setPc, State.sp_setMem, State.sp_setSp, toNat_sub_one hs]
  · rw [byteAt_of_set (s := s) rfl, toNat_returnByte hp]
  · rw [State.pc_setPc, toNat_zext9, State.reg_setSp_eq_ite]

/-- Settles O29: the closed form of RET's effect; the increment is exact as `SP` is not 255. -/
theorem retPopsProgramCounter : Obligations.RetPopsProgramCounter := by
  refine fun s hs => ⟨_, execRet_ok hs, toNat_zext9 _, ?_, sameRegsExcept_setSp s _, rfl, fun _ => rfl, rfl, rfl, rfl, rfl,
    rfl⟩
  rw [State.sp_setPc, State.sp_setSp, toNat_add_one hs]

/-! ### CMP, JEQ, JNE -/

/-- Equal says that the registers hold the same byte (R83). -/
theorem equal_compareFlags_iff (x y : Byte) : (compareFlags x y).equal = true ↔ x = y :=
  decide_eq_true_iff.trans BitVec.toNat_inj

/-- Settles O31: the flags of CMP are `compareFlags` of the two registers. -/
theorem cmpRecomputesAllFlags : Obligations.CmpRecomputesAllFlags := fun _ _ _ _ _ ha hb =>
  ⟨_, execCmp_ok ha hb, equal_compareFlags_iff _ _, decide_eq_true_iff, decide_eq_true_iff, exactlyOne_compareFlags _ _,
    rfl, fun _ => rfl, fun _ => rfl, rfl, rfl, rfl, rfl, rfl⟩

/-- Settles O32: the two closed forms, which differ in the value of Equal they ask for. -/
theorem conditionalJumpsReadEqual : Obligations.ConditionalJumpsReadEqual := by
  refine fun s a i ha => ⟨⟨_, execJeq_ok ha, ?_, fun _ => rfl, rfl, fun _ => rfl, rfl, rfl, rfl, rfl, rfl⟩,
    ⟨_, execJne_ok ha, ?_, fun _ => rfl, rfl, fun _ => rfl, rfl, rfl, rfl, rfl, rfl⟩⟩
  · rw [State.pc_setPc, zext9_eq_ofNat]
  · rw [State.pc_setPc, zext9_eq_ofNat]
    cases s.flags.equal <;> rfl

end Sys2Proof.Machine
end

section
/-!
Instructions in sequence: PUSH then a fetch of its cell, PUSH then POP, CALL then RET, CMP then a conditional jump, and a
jump to itself for ever. Each follows from what the single instructions do.
-/

namespace Sys2Proof.Machine

variable {s t u : State} {a : Byte} {i : RegIdx}

/-! ### PUSH, POP, CALL, RET -/

/-- Settles O48: the fetch latches the byte at `pc`, and PUSH has put the register there. -/
theorem pushedByteIsFetchedNext : Obligations.PushedByteIsFetchedNext := by
  intro s t u a i ha hi hs h _ hpc hu
  obtain ⟨t', ht', -, hcell, -⟩ := pushStoresBelowTop s a i ha hs
  obtain rfl : t = t' := Host.Outcome.next.inj (h.symm.trans ht')
  have hle : t.pc.toNat ≤ 255 := hpc ▸ Nat.le_of_lt_succ (byte_lt_memSize _)
  rw [ir_of_step hle hu, hpc, hcell, if_neg hi]

/-- The registers are as before when all but the stack pointer are, and the stack pointer is. -/
theorem sameRegs_of_sp_eq (h : SameRegsExcept [s.cfg.spIndex] s u) (hcfg : u.cfg = s.cfg) (hsp : u.sp = s.sp) :
    SameRegs s u := by
  intro j
  by_cases hj : j = s.cfg.spIndex
  · rw [State.sp, State.sp, hcfg] at hsp
    rw [hj, hsp]
  · exact h j fun hm => hj (List.mem_singleton.1 hm)

/-- A stack pointer that went down by one is below 255, and an increment takes it back. -/
theorem sp_of_decremented (h : t.sp.toNat + 1 = s.sp.toNat) : t.sp = s.sp - 1 ∧ t.sp ≠ 255 := by
  bv_omega

/-- Settles O49: POP finds the byte where PUSH put it and takes the stack pointer back. -/
theorem pushThenPopRestoresRegisters : Obligations.PushThenPopRestoresRegisters := by
  intro s a i ha hi hs
  obtain ⟨t, ht, htsp, hcell, -, htregs, -, htflags, -, -, -, -, htcfg⟩ := pushStoresBelowTop s a i ha hs
  obtain ⟨hsp, hmax⟩ := sp_of_decremented htsp
  obtain ⟨u, hu, hui, husp, huregs, -, huflags, -, -, -, -, -, hucfg⟩ := popLoadsTop t a i ha (htcfg ▸ hi) hmax
  have hback : u.sp = s.sp := BitVec.eq_of_toNat_eq (husp.trans htsp)
  refine ⟨t, u, ht, hu, sameRegs_of_sp_eq (fun j hj => ?_) (hucfg.trans htcfg) hback, huflags.trans htflags⟩
  by_cases hji : j = i
  · rw [hji, hui, hsp, hcell, if_neg hi]
  · have hnot : j ∉ [i, t.cfg.spIndex] := by simpa [hji, htcfg] using hj
    rw [huregs j hnot, htregs j hj]

/-- Settles O50: RET finds the return address where CALL put it and takes the stack pointer back. -/
theorem callThenRetReturns : Obligations.CallThenRetReturns := by
  intro s a i ha hp hs
  obtain ⟨t, ht, htsp, hcell, -, -, htregs, htflags, -, -, -, -, htcfg⟩ := callPushesReturnAddress s a i ha hp hs
  obtain ⟨hsp, hmax⟩ := sp_of_decremented htsp
  obtain ⟨u, hu, hupc, husp, huregs, huflags, humem, -, -, -, -, hucfg⟩ := retPopsProgramCounter t hmax
  have hback : u.sp = s.sp := BitVec.eq_of_toNat_eq (husp.trans htsp)
  refine ⟨t, u, ht, hu, ?_, sameRegs_of_sp_eq (fun j hj => ?_) (hucfg.trans htcfg) hback, huflags.trans htflags, ?_⟩
  · rw [hupc, hsp, hcell]
  · rw [huregs j (htcfg ▸ hj), htregs j hj]
  · rw [humem, hcell]

/-! ### CMP then a conditional jump -/

/-- Settles O51: CMP leaves the registers as they were and Equal as the comparison says. -/
theorem compareThenBranch : Obligations.CompareThenBranch := by
  intro s a b c i j k ha hb hc
  obtain ⟨t, ht, heq, -, -, -, htpc, htregs, -⟩ := cmpRecomputesAllFlags s a b i j ha hb
  obtain ⟨⟨u, hu, hupc, -⟩, ⟨v, hv, hvpc, -⟩⟩ := conditionalJumpsReadEqual t c k hc
  have htarget : (BitVec.ofNat 9 (t.reg k).toNat).toNat = (s.reg k).toNat := by
    rw [← zext9_eq_ofNat, toNat_zext9, htregs]
  have hnext : t.pc + 2 = s.pc + 5 := by rw [htpc, BitVec.add_assoc]; rfl
  refine ⟨t, u, v, ht, hu, hv, fun h => ?_, fun h => ?_⟩
  · have he := heq.2 h
    exact ⟨by rw [hupc, if_pos he, htarget], by rw [hvpc, if_pos he, hnext]⟩
  · have he := mt heq.1 h
    exact ⟨by rw [hupc, if_neg he, hnext], by rw [hvpc, if_neg he, htarget]⟩

/-! ### A jump to itself -/

/-- A jump to its own address only latches its opcode byte, whatever the instruction register held. -/
theorem step_jmp_self (hr : s.run = .running) (hf : s.Fetches (.jmp a)) (ha : a.toNat = i.val)
    (hself : (s.reg i).toNat = s.pc.toNat) (x : Byte) : step (s.latchIr x) = .next s.fetched := by
  rw [step_latchIr_of_lt hf.pc_lt, step_of_fetches hr hf]
  exact execJmp_self (s := s.fetched) ha hself

/-- So a run of it reaches states that differ in the instruction register at most. -/
theorem reaches_jmp_self (hr : s.run = .running) (hf : s.Fetches (.jmp a)) (ha : a.toNat = i.val)
    (hself : (s.reg i).toNat = s.pc.toNat) (h : Reaches s t) :
    ∃ x, t = s.latchIr x ∧ (x = s.ir ∨ x = s.byteAt s.pc.toNat) := by
  induction h with
  | refl => exact ⟨s.ir, rfl, .inl rfl⟩
  | tail _ hu ih =>
    obtain ⟨x, rfl, -⟩ := ih
    rw [step_jmp_self hr hf ha hself x] at hu
    cases hu
    exact ⟨s.byteAt s.pc.toNat, rfl, .inr rfl⟩

/-- Settles O54: every reached state is the first with another instruction register, which is running and steps on. -/
theorem jumpToItselfRunsForever : Obligations.JumpToItselfRunsForever := by
  intro s a i hr hf ha hself
  refine ⟨fun t h => ?_, fun t h => ?_⟩
  · obtain ⟨x, rfl, -⟩ := reaches_jmp_self hr hf ha hself h
    simp [hr]
  · obtain ⟨x, rfl, hx⟩ := reaches_jmp_self hr hf ha hself h
    exact ⟨⟨_, step_jmp_self hr hf ha hself x⟩, hr, rfl, fun _ => rfl, rfl, fun _ => rfl, rfl, rfl, rfl, hx⟩

end Sys2Proof.Machine
end
